-- ==== Sys2Proof/Word.lean ====
section
/-! DEFINITION. The value types of the three-register engine (`00_scope.md` R14). A register value is an `Int`, "a signed
integer of unbounded width (Lean `Int`)" (R21). The program counter is a `Nat` (R27). A slot of the program store holds 3
bits (R45) and is held as a `Nat`, wider on purpose, so that the step makes the check R76 writes for "a model whose slot
type admits values above 7" (R70); log entry 5. Int and Nat are written out, since `omega` does not see through a name. -/

namespace Sys2Proof

/-- One output digit, "values of 0..7 (Lean `Fin 8`)" (R14). -/
abbrev Digit := Fin 8

/-- The read-only 16-bit status word STATUSW (R35). -/
abbrev StatusWord := BitVec 16

end Sys2Proof
end

