-- ==== Sys2Proof/Syntax.lean ====
section
/-! DEFINITION. The instruction set as syntax: eight opcodes, each with one operand (`30_encoding.md` R59 to R66). -/

namespace Sys2Proof

/-- The three registers of the register file (R20). -/
inductive Reg where
  | A
  | B
  | C
  deriving DecidableEq, Repr

/-- A combo operand (R64): operand values 0 to 3 are literals, 4 to 6 name a register, 7 is reserved. -/
inductive Combo where
  /-- operand values 0 to 3: the value itself (`Combo.wf` bounds it) -/
  | lit (n : Nat)
  /-- operand values 4, 5 and 6: the current value of A, B or C -/
  | reg (r : Reg)
  /-- operand value 7: decodes, and faults RESERVED_COMBO when executed (R68) -/
  | reserved
  deriving DecidableEq, Repr

/-- The closed instruction set (R2), one constructor per row of the opcode table, in opcode order (R66). -/
inductive Instr where
  /-- opcode 0, shift-A: `A := A arithmetic-right-shift combo` (R91) -/
  | shiftA (x : Combo)
  /-- opcode 1, xor-B-literal: `B := B xor literal` (R95) -/
  | xorBLiteral (x : Nat)
  /-- opcode 2, mod-B: `B := combo mod 8` (R96) -/
  | modB (x : Combo)
  /-- opcode 3, jump-if-A-nonzero: `if A ≠ 0 then PC := literal` (R100) -/
  | jumpIfANonzero (x : Nat)
  /-- opcode 4, xor-B-C: `B := B xor C`; the operand is fetched, kept here and ignored (R97) -/
  | xorBC (x : Nat)
  /-- opcode 5, emit: append `combo mod 8` to OUT (R103) -/
  | emit (x : Combo)
  /-- opcode 6, shift-B: `B := A arithmetic-right-shift combo` (R92) -/
  | shiftB (x : Combo)
  /-- opcode 7, shift-C: `C := A arithmetic-right-shift combo` (R93) -/
  | shiftC (x : Combo)
  deriving DecidableEq, Repr

end Sys2Proof
end

