-- ==== Sys2Proof/WellFormed.lean ====
section
/-! DEFINITION. Which instruction terms the encoding can hold: a 3-bit operand field (R60), read as a literal (R63) or as
a combo operand (R64). -/

namespace Sys2Proof

/-- A combo operand's literal form holds 0 to 3 (R64). The reserved form is encodable (R66, R68). -/
def Combo.wf : Combo → Bool
  | .lit n => decide (n ≤ 3)
  | .reg _ => true
  | .reserved => true

/-- A literal operand, and the ignored operand of xor-B-C, is one 3-bit slot (R60, R63). -/
def literalWf (x : Nat) : Bool := decide (x ≤ 7)

/-- An instruction is well-formed when its operand fits the operand slot in the way its opcode reads it (R65). -/
def Instr.wf : Instr → Bool
  | .shiftA x => x.wf
  | .xorBLiteral x => literalWf x
  | .modB x => x.wf
  | .jumpIfANonzero x => literalWf x
  | .xorBC x => literalWf x
  | .emit x => x.wf
  | .shiftB x => x.wf
  | .shiftC x => x.wf

end Sys2Proof
end

