-- ==== Sys2Proof/Decode.lean ====
section
/-! DEFINITION. The decoder, from a pair of slots to an instruction (`30_encoding.md` R59 to R72), the opcode table it is
written from (R66), and the encoder beside it. -/

namespace Sys2Proof

/-- Why a pair of slots is no instruction. -/
inductive DecodeReject where
  /-- the opcode slot or the operand slot holds a value outside 0..7 (R70) -/
  | badSlotValue
  deriving DecidableEq, Repr

/-- A combo operand field (R64). -/
def decodeCombo : Nat → Except DecodeReject Combo
  | 0 => .ok (.lit 0)
  | 1 => .ok (.lit 1)
  | 2 => .ok (.lit 2)
  | 3 => .ok (.lit 3)
  | 4 => .ok (.reg .A)
  | 5 => .ok (.reg .B)
  | 6 => .ok (.reg .C)
  | 7 => .ok .reserved
  | _ => .error .badSlotValue

/-- A literal operand field, zero-extended (R63); also the field that xor-B-C ignores (R62). -/
def decodeLiteral (x : Nat) : Except DecodeReject Nat :=
  if x ≤ 7 then .ok x else .error .badSlotValue

/-- The instruction that the opcode slot `o` and the operand slot `x` hold (R60, R66). Total: every pair in 0..7 × 0..7
is one instruction (R72), and every other pair is rejected by name (R70). -/
def decode (o x : Nat) : Except DecodeReject Instr :=
  match o with
  | 0 => (decodeCombo x).map .shiftA
  | 1 => (decodeLiteral x).map .xorBLiteral
  | 2 => (decodeCombo x).map .modB
  | 3 => (decodeLiteral x).map .jumpIfANonzero
  | 4 => (decodeLiteral x).map .xorBC
  | 5 => (decodeCombo x).map .emit
  | 6 => (decodeCombo x).map .shiftB
  | 7 => (decodeCombo x).map .shiftC
  | _ => .error .badSlotValue

/-- The instruction of a packed word `w = o * 8 + x` (R61), as the opcode table numbers its bits: `w[5:3]` is the opcode
slot, which lies at the lower index, and `w[2:0]` the operand slot. Only the low `nbits` bits count. -/
def decodeTableWord (nbits w : Nat) : Option Instr :=
  match decode (w % 2 ^ nbits / 8) (w % 2 ^ nbits % 8) with
  | .ok i => some i
  | .error _ => none

/-- The opcode slot of an instruction (R66). -/
def Instr.opcode : Instr → Nat
  | .shiftA _ => 0
  | .xorBLiteral _ => 1
  | .modB _ => 2
  | .jumpIfANonzero _ => 3
  | .xorBC _ => 4
  | .emit _ => 5
  | .shiftB _ => 6
  | .shiftC _ => 7

/-- The operand field of a combo operand (R64). -/
def Combo.field : Combo → Nat
  | .lit n => n
  | .reg .A => 4
  | .reg .B => 5
  | .reg .C => 6
  | .reserved => 7

/-- The operand slot of an instruction (R60). -/
def Instr.operand : Instr → Nat
  | .shiftA x => x.field
  | .xorBLiteral x => x
  | .modB x => x.field
  | .jumpIfANonzero x => x
  | .xorBC x => x
  | .emit x => x.field
  | .shiftB x => x.field
  | .shiftC x => x.field

/-- The two slots of an instruction, the opcode at the lower index (R48, R59). -/
def encode (i : Instr) : List Nat := [i.opcode, i.operand]

/-- The packed 6-bit word of an instruction, `w = o * 8 + x` (R61); a notation, never stored. -/
def packedWord (i : Instr) : Nat := i.opcode * 8 + i.operand

/-- How an opcode reads its operand field (R65). -/
inductive OperandKind where
  | combo
  | literal
  | ignored
  deriving DecidableEq, Repr

/-- The way each instruction reads its operand field (R65). -/
def Instr.kind : Instr → OperandKind
  | .shiftA _ => .combo
  | .xorBLiteral _ => .literal
  | .modB _ => .combo
  | .jumpIfANonzero _ => .literal
  | .xorBC _ => .ignored
  | .emit _ => .combo
  | .shiftB _ => .combo
  | .shiftC _ => .combo

/-- Whether the instruction is opcode 3, the one the oracle stops at (R108). -/
def Instr.isJump : Instr → Bool
  | .shiftA _ => false
  | .xorBLiteral _ => false
  | .modB _ => false
  | .jumpIfANonzero _ => true
  | .xorBC _ => false
  | .emit _ => false
  | .shiftB _ => false
  | .shiftC _ => false

/-- The source's name of each instruction (R19), letter for letter as the opcode table has it. -/
def Instr.mnemonic : Instr → String
  | .shiftA _ => "shift-A"
  | .xorBLiteral _ => "xor-B-literal"
  | .modB _ => "mod-B"
  | .jumpIfANonzero _ => "jump-if-A-nonzero"
  | .xorBC _ => "xor-B-C"
  | .emit _ => "emit"
  | .shiftB _ => "shift-B"
  | .shiftC _ => "shift-C"

/-- One row of the opcode map of R66. -/
structure OpcodeRow where
  mnemonic : String
  kind : OperandKind
  pattern : Nat
  mask : Nat
  deriving DecidableEq, Repr

/-- The opcode map (R66): a packed word `w` belongs to the row with `w &&& mask = pattern`. -/
def opcodeTable : List OpcodeRow :=
  [ ⟨"shift-A", .combo, 0b000000, 0b111000⟩,
    ⟨"xor-B-literal", .literal, 0b001000, 0b111000⟩,
    ⟨"mod-B", .combo, 0b010000, 0b111000⟩,
    ⟨"jump-if-A-nonzero", .literal, 0b011000, 0b111000⟩,
    ⟨"xor-B-C", .ignored, 0b100000, 0b111000⟩,
    ⟨"emit", .combo, 0b101000, 0b111000⟩,
    ⟨"shift-B", .combo, 0b110000, 0b111000⟩,
    ⟨"shift-C", .combo, 0b111000, 0b111000⟩ ]

/-- The rows of the opcode map that a packed word belongs to. -/
def rowsOf (w : Nat) : List OpcodeRow := opcodeTable.filter fun r => w &&& r.mask == r.pattern

/-- How a combo operand is written in a listing (R74). -/
def Combo.listing : Combo → String
  | .lit n => toString n
  | .reg .A => "A"
  | .reg .B => "B"
  | .reg .C => "C"
  | .reserved => "#7"

/-- One line of a listing, `<mnemonic> <operand>` (R74). -/
def Instr.listing (i : Instr) : String :=
  i.mnemonic ++ " " ++
    match i with
    | .shiftA x => x.listing
    | .xorBLiteral x => toString x
    | .modB x => x.listing
    | .jumpIfANonzero x => toString x
    | .xorBC x => "(" ++ toString x ++ ")"
    | .emit x => x.listing
    | .shiftB x => x.listing
    | .shiftC x => x.listing

end Sys2Proof
end

