-- ==== Sys2Proof/Config.lean ====
section
/-! DEFINITION. The parameters the spec leaves OPEN (`00_scope.md` R10). They are plain data carried by the state and
changed by nothing, so every statement over all states is a statement over all their values; log entry 1. -/

namespace Sys2Proof

/-- The implementation parameters of R10. "A model takes each as an argument." -/
structure Config where
  /-- `REG_WIDTH`: the width in bits of a physical register, or `none` for the unbounded architectural value (R21, D1) -/
  regWidth : Option Nat
  /-- `PROG_MAX`: the largest program length, in slots (D17) -/
  progMax : Nat
  /-- `OUT_CAPACITY`: the largest number of output digits, or `none` for `unbounded` (R37, D19) -/
  outCapacity : Option Nat
  deriving DecidableEq, Repr

/-- What R10 says of the OPEN values: a finite `REG_WIDTH` is at least 64, and `PROG_MAX` is even. -/
def Config.wf (cfg : Config) : Bool :=
  (match cfg.regWidth with
    | none => true
    | some w => decide (64 ≤ w)) &&
  decide (cfg.progMax % 2 = 0)

/-- The parameters of `State.reset`. `OUT_CAPACITY` is the spec's default `unbounded` (R10).
DESIGN CHOICE (log entry 1): `REG_WIDTH` unbounded, `PROG_MAX` 65536. -/
def Config.chosen : Config :=
  { regWidth := none, progMax := 65536, outCapacity := none }

end Sys2Proof
end

