-- ==== Sys2Proof/Machine/State.lean ====
section
/-! DEFINITION. The engine's state as plain data (`10_state.md`), the reasons a step can stop, and the state at power-on
(`70_reset_and_hazards.md` R134). -/

namespace Sys2Proof.Machine

/-- The program store PROG, slot 0 first; its length is `L` (R38, R45). It is the engine's only addressed storage, it is
read-only during a run, and there is no data memory (R46). -/
abbrev Memory := List Nat

/-- MODE, chosen by the host at Start (R33). -/
inductive Mode where
  | run
  | oracle
  deriving DecidableEq, Repr

/-- The fault causes of R117, in the order of their codes 1 to 8 (`FaultCode.code`). -/
inductive FaultCode where
  /-- 1 RESERVED_COMBO: a combo operand with field 7 is evaluated -/
  | reservedCombo
  /-- 2 NEG_SHIFT: the shift amount is negative -/
  | negShift
  /-- 3 OPERAND_BEYOND_END: `PC = L - 1`, so the operand slot is past the end -/
  | operandBeyondEnd
  /-- 4 ORACLE_NO_EMIT: the oracle reached opcode 3 with OUT empty -/
  | oracleNoEmit
  /-- 5 ORACLE_MULTI_EMIT: the oracle reached opcode 3 with two or more digits in OUT -/
  | oracleMultiEmit
  /-- 6 ORACLE_NO_JUMP: the oracle reached `PC ≥ L` without fetching opcode 3 -/
  | oracleNoJump
  /-- 7 OUTPUT_OVERFLOW: an emit with OUT full -/
  | outputOverflow
  /-- 8 BAD_SLOT_VALUE: a fetched slot is outside 0..7 -/
  | badSlotValue
  deriving DecidableEq, Repr

/-- STATUS (R34). -/
inductive Status where
  /-- from power-on until the first Start -/
  | idle
  /-- from each Start until a step sets another value -/
  | running
  /-- the run ended normally (R102) -/
  | halted
  /-- the oracle pass ended and returned the digit (R108) -/
  | oracleDone (d : Digit)
  /-- the engine stopped for good with a cause (R118) -/
  | faulted (code : FaultCode)
  deriving DecidableEq, Repr

/-- `Halted`, `OracleDone` and `Faulted` are final (R34). -/
def Status.final : Status → Bool
  | .idle => false
  | .running => false
  | .halted => true
  | .oracleDone _ => true
  | .faulted _ => true

/-- Why a Start is rejected (R140), in the order of the checks. It is the answer to the host, not state (R136). -/
inductive LoadError where
  | busy
  | oddLength
  | progTooLong
  | digitRange
  | regRange
  deriving DecidableEq, Repr

/-- Why the model's step answers no next state. The engine's own faults (R117) are NOT here: the spec gives each of them
a next state, with STATUS `Faulted` (R118), and the model takes it. -/
inductive Fault where
  /-- Raised by `step` alone, when STATUS is not Running: "A step happens only when STATUS is `Running`" (R34, R76).
  Safe: the model takes no step where the spec defines none. -/
  | notRunning (status : Status)
  deriving DecidableEq, Repr

/-- Why the model gives no meaning. -/
inductive Refusal where
  /-- Would be raised by an arm of `exec` with no meaning yet; no arm raises it. Safe. -/
  | notModelled (mnemonic : String)
  deriving DecidableEq, Repr

/-- The whole state: the spec's tuple (A, B, C, PC, OUT, MODE, STATUS), the program store the host gave at Start, and the
parameters. STATUSW is a view of it (`State.statusw`). -/
structure State where
  /-- register A, "the working value" (R20 to R22) -/
  a : Int
  /-- register B (R20) -/
  b : Int
  /-- register C (R20) -/
  c : Int
  /-- the program counter, in slots (R27) -/
  pc : Nat
  /-- the output sequence OUT, oldest digit first (R36) -/
  out : List Digit
  /-- MODE (R33) -/
  mode : Mode
  /-- STATUS (R34) -/
  status : Status
  /-- PROG, whose length is L (R38). A parameter of the spec's step; held here because `step` takes one state. -/
  prog : Memory
  /-- the parameters of R10; no operation changes them -/
  config : Config
  deriving DecidableEq, Repr

/-- Power-on (R134): STATUS is Idle and STATUSW reads 0. DESIGN CHOICE (log entry 2): A, B, C, PC, OUT and PROG, which
"hold no value" until the first Start, are 0 or empty. MODE is Run, whose STATUSW bit R35 gives as 0 when Idle. -/
def State.powerOn (cfg : Config) : State :=
  { a := 0, b := 0, c := 0, pc := 0, out := [], mode := .run, status := .idle, prog := [], config := cfg }

/-- The machine right after power-on, with the parameters of log entry 1. The engine's own reset is the host's Start
transaction (R135), `Machine.start`. -/
def State.reset : State := State.powerOn Config.chosen

end Sys2Proof.Machine
end

