-- ==== Sys2Proof/Machine/Ops.lean ====
section
/-! DEFINITION. The named operations over the state and the integer primitives (`40_cycle.md` R82 to R86), and the one way
a step raises a fault (`60_exceptions.md` R118). -/

namespace Sys2Proof.Machine

/-! ### Integer primitives -/

/-- Arithmetic right shift, `floor(v / 2^n)`, for `n ≥ 0` (R83). The shift family never calls it with `n < 0` (R94). -/
def sar (v n : Int) : Int := v >>> n.toNat

/-- Modulo 8 with a result in 0..7 for every sign (R84). -/
def mod8 (v : Int) : Digit := ⟨(v % 8).toNat, by omega⟩

/-- Bitwise exclusive or on infinite two's complement (R85); `Int.negSucc n` is the rule's `~n`. -/
def xorInt : Int → Int → Int
  | .ofNat n, .ofNat m => .ofNat (n ^^^ m)
  | .ofNat n, .negSucc m => .negSucc (n ^^^ m)
  | .negSucc n, .ofNat m => .negSucc (n ^^^ m)
  | .negSucc n, .negSucc m => .ofNat (n ^^^ m)

/-! ### Registers, PC, output and program store -/

/-- `x[r]` (R13): none of the registers is hardwired (R20). -/
def State.readReg (s : State) : Reg → Int
  | .A => s.a
  | .B => s.b
  | .C => s.c

/-- `x[r] <- v` (R13). -/
def State.writeReg (s : State) (r : Reg) (v : Int) : State :=
  match r with
  | .A => { s with a := v }
  | .B => { s with b := v }
  | .C => { s with c := v }

/-- `pc <- t` (R13). -/
def State.setPc (s : State) (t : Nat) : State := { s with pc := t }

/-- `pc <- pc + 2` (R82). -/
def State.advance (s : State) : State := s.setPc (s.pc + 2)

/-- `OUT <- OUT ++ [d]` (R13, R36). -/
def State.appendOut (s : State) (d : Digit) : State := { s with out := s.out ++ [d] }

/-- Whether OUT holds `OUT_CAPACITY` digits already; never with the default `unbounded` (R37, R104). -/
def State.outFull (s : State) : Bool :=
  match s.config.outCapacity with
  | none => false
  | some n => decide (s.out.length = n)

/-- `PROG[i]`, defined only for `i < L` (R13, R52). -/
def Memory.slot? (m : Memory) (i : Nat) : Option Nat := m[i]?

/-- What a program store holds: an even number of slots, each in 0..7 (R38, R45). A list of slots has one form only, so
equal stores are equal data. -/
def Memory.wf (m : Memory) : Bool := decide (m.length % 2 = 0) && m.all (fun v => decide (v ≤ 7))

/-! ### Ends of a run -/

/-- `raise Fault(code)` (R118): STATUS becomes Faulted(code) and nothing else changes. This is the engine's whole fault
mechanism: no saved state, no vector, no handler (R121). There is no return from a fault; only a new Start leaves it
(R122, `Machine.start`). -/
def State.raise (s : State) (code : FaultCode) : State := { s with status := .faulted code }

/-- `halt` (R13): STATUS becomes Halted and nothing else changes (R77). -/
def State.halt (s : State) : State := { s with status := .halted }

/-- The oracle's end (R108): STATUS becomes OracleDone(d) and nothing else changes. -/
def State.finishOracle (s : State) (d : Digit) : State := { s with status := .oracleDone d }

/-- The outcome of an instruction: its own next state, or the state with the fault it raised (R118). -/
def State.conclude (s : State) : Except FaultCode State → Host.Outcome State Fault Refusal
  | .ok t => .next t
  | .error code => .next (s.raise code)

end Sys2Proof.Machine
end

