-- ==== Sys2Proof/Machine/Operands.lean ====
section
/-! DEFINITION. The two ways an operand is read (`30_encoding.md` R62 to R65, `40_cycle.md` R79, R80). -/

namespace Sys2Proof.Machine

/-- `combo(x)` (R79), from the register values at the start of the step; the reserved form faults. -/
def comboValue (s : State) : Combo → Except FaultCode Int
  | .lit n => .ok (n : Int)
  | .reg r => .ok (s.readReg r)
  | .reserved => .error .reservedCombo

/-- The value of a literal operand: the operand itself (R80). It reads no register and never faults. -/
def literalValue (x : Nat) : Int := (x : Int)

/-- A shift amount: a combo operand that must not be negative (R94). -/
def shiftAmount (s : State) (x : Combo) : Except FaultCode Int :=
  match comboValue s x with
  | .error code => .error code
  | .ok n => if n < 0 then .error .negShift else .ok n

end Sys2Proof.Machine
end

