-- ==== Sys2Proof/Machine/BRegister.lean ====
section
/-! DEFINITION. The B-register family: xor-B-literal, mod-B and xor-B-C (`42_bitwise.md` R95 to R97). -/

namespace Sys2Proof.Machine

/-- xor-B-literal (R95). -/
def execXorBLiteral (x : Nat) (s : State) : Host.Outcome State Fault Refusal :=
  .next (s.writeReg .B (xorInt s.b (literalValue x))).advance

/-- mod-B (R96). -/
def execModB (x : Combo) (s : State) : Host.Outcome State Fault Refusal :=
  s.conclude <|
    match comboValue s x with
    | .error code => .error code
    | .ok v => .ok (s.writeReg .B ((mod8 v).val : Int)).advance

/-- xor-B-C (R97). The operand slot is fetched and consumed but not used. -/
def execXorBC (_x : Nat) (s : State) : Host.Outcome State Fault Refusal :=
  .next (s.writeReg .B (xorInt s.b s.c)).advance

end Sys2Proof.Machine
end

