-- ==== Sys2Proof/Machine/Control.lean ====
section
/-! DEFINITION. Control transfer: jump-if-A-nonzero (`43_control.md` R99 to R101). -/

namespace Sys2Proof.Machine

/-- jump-if-A-nonzero (R100): an absolute slot index, with no alignment or range check (R101). In oracle mode the step
never executes it (R108, `Machine.oracleStop`). -/
def execJumpIfANonzero (x : Nat) (s : State) : Host.Outcome State Fault Refusal :=
  .next (if s.a ≠ 0 then s.setPc x else s.advance)

end Sys2Proof.Machine
end

