-- ==== Sys2Proof/Machine/Output.lean ====
section
/-! DEFINITION. Output: emit (`44_output.md` R103, R104). -/

namespace Sys2Proof.Machine

/-- emit (R103). The combo operand is evaluated before OUT is found full, so RESERVED_COMBO comes first (R120). -/
def execEmit (x : Combo) (s : State) : Host.Outcome State Fault Refusal :=
  s.conclude <|
    match comboValue s x with
    | .error code => .error code
    | .ok v => if s.outFull then .error .outputOverflow else .ok (s.appendOut (mod8 v)).advance

end Sys2Proof.Machine
end

