-- ==== Sys2Proof/Machine/Shift.lean ====
section
/-! DEFINITION. The shift family: shift-A, shift-B and shift-C (`41_shift.md` R91 to R94). -/

namespace Sys2Proof.Machine

/-- The family's shared effect: `r <- sar(A, combo(x)); pc <- pc + 2`, with its two faults taken before any write. -/
def shiftInto (r : Reg) (x : Combo) (s : State) : Except FaultCode State :=
  match shiftAmount s x with
  | .error code => .error code
  | .ok n => .ok (s.writeReg r (sar s.a n)).advance

/-- shift-A (R91). -/
def execShiftA (x : Combo) (s : State) : Host.Outcome State Fault Refusal := s.conclude (shiftInto .A x s)

/-- shift-B (R92). -/
def execShiftB (x : Combo) (s : State) : Host.Outcome State Fault Refusal := s.conclude (shiftInto .B x s)

/-- shift-C (R93). -/
def execShiftC (x : Combo) (s : State) : Host.Outcome State Fault Refusal := s.conclude (shiftInto .C x s)

end Sys2Proof.Machine
end

