-- ==== Sys2Proof/Machine/Dispatch.lean ====
section
/-! DEFINITION. `execute(o, x)`: the dispatch on the opcode to exactly one instruction rule (`40_cycle.md` R81). -/

namespace Sys2Proof.Machine

def exec (i : Instr) (s : State) : Host.Outcome State Fault Refusal :=
  match i with
  | .shiftA x => Sys2Proof.Machine.execShiftA x s
  | .xorBLiteral x => Sys2Proof.Machine.execXorBLiteral x s
  | .modB x => Sys2Proof.Machine.execModB x s
  | .jumpIfANonzero x => Sys2Proof.Machine.execJumpIfANonzero x s
  | .xorBC x => Sys2Proof.Machine.execXorBC x s
  | .emit x => Sys2Proof.Machine.execEmit x s
  | .shiftB x => Sys2Proof.Machine.execShiftB x s
  | .shiftC x => Sys2Proof.Machine.execShiftC x s

end Sys2Proof.Machine
end

