-- ==== Sys2Proof/Machine/Oracle.lean ====
section
/-! DEFINITION. What ends a pass: the end of the program (`43_control.md` R102, `45_oracle.md` R110) and the oracle stop
(`45_oracle.md` R108). -/

namespace Sys2Proof.Machine

/-- A step that begins with `PC ≥ L`: it fetches nothing. Run mode halts (R77); the oracle has found no jump (R110). -/
def passEnd (s : State) : State :=
  match s.mode with
  | .run => s.halt
  | .oracle => s.raise .oracleNoJump

/-- `oracle_stop()` (R108): opcode 3 was fetched in oracle mode. It reads neither A nor the operand, and PC still names
the jump. No digit emitted is ORACLE_NO_EMIT (R109), two or more is ORACLE_MULTI_EMIT (R111). -/
def oracleStop (s : State) : State :=
  match s.out with
  | [] => s.raise .oracleNoEmit
  | [d] => s.finishOracle d
  | _ :: _ :: _ => s.raise .oracleMultiEmit

end Sys2Proof.Machine
end

