-- ==== Sys2Proof/Machine/Cycle.lean ====
section
/-! DEFINITION. The fetch-decode-execute cycle (`40_cycle.md` R76), check by check in the rule's order. -/

namespace Sys2Proof.Machine

/-- The fetch of the pair (PROG[PC], PROG[PC + 1]) and its decoding (R47, R48). It needs no alignment (R50). When
PC = L - 1 the operand slot does not exist: OPERAND_BEYOND_END. A slot outside 0..7 is BAD_SLOT_VALUE (R70). -/
def fetch (s : State) : Except FaultCode Instr :=
  match s.prog.slot? s.pc, s.prog.slot? (s.pc + 1) with
  | some o, some x =>
    match decode o x with
    | .ok i => .ok i
    | .error .badSlotValue => .error .badSlotValue
  | _, _ => .error .operandBeyondEnd

/-- What a Running engine does with a fetched instruction: the oracle stops at opcode 3 before executing it (R108);
otherwise the instruction executes (R81). -/
def runFetched (i : Instr) (s : State) : Host.Outcome State Fault Refusal :=
  if s.mode = .oracle ∧ i.isJump = true then .next (oracleStop s) else exec i s

/-- One step of a Running engine (R76): the halt check (R77), the fetch and its faults, the oracle stop, the instruction.
With any other STATUS no step happens (R34). -/
def cycle (s : State) : Host.Outcome State Fault Refusal :=
  if s.status = .running then
    if s.prog.length ≤ s.pc then .next (passEnd s)
    else
      match fetch s with
      | .error code => .next (s.raise code)
      | .ok i => runFetched i s
  else .fault (.notRunning s.status)

/-- The program store with the pair (o, x) at slots `pc` and `pc + 1`; zero slots are added where the store is too
short, keeping an even length. -/
def placePair (m : Memory) (pc : Nat) (o x : Nat) : Memory :=
  ((m ++ List.replicate (pc + 2 + pc % 2 - m.length) 0).set pc o).set (pc + 1) x

end Sys2Proof.Machine
end

