-- ==== Sys2Proof/Machine/Step.lean ====
section
/-! DEFINITION. The machine's step (`40_cycle.md` R76) and the host's way of placing one instruction under it. -/

namespace Sys2Proof.Machine

/-- One step of the engine. -/
def step (s : State) : Host.Outcome State Fault Refusal := cycle s

/-- `s` with the instruction of the packed word `w` at PC, and with what the fetch needs of a Start: STATUS Running and
MODE Run, so that the very next step executes it (log entry 6). -/
def State.withFetchWord (s : State) (nbits w : Nat) : State :=
  { s with
    prog := placePair s.prog s.pc (w % 2 ^ nbits / 8) (w % 2 ^ nbits % 8)
    status := .running
    mode := .run }

end Sys2Proof.Machine
end

