-- ==== Sys2Proof/Machine/Flags.lean ====
section
/-! DEFINITION. The engine has no flags or condition codes (`10_state.md` R39). Its one status register is the read-only
word STATUSW, a view of STATUS and MODE (R35), with the fault codes of `60_exceptions.md` R117. -/

namespace Sys2Proof.Machine

/-- The code of a fault cause (R117). Code 0 means no fault; 9 to 15 are never produced. -/
def FaultCode.code : FaultCode → BitVec 4
  | .reservedCombo => 1
  | .negShift => 2
  | .operandBeyondEnd => 3
  | .oracleNoEmit => 4
  | .oracleMultiEmit => 5
  | .oracleNoJump => 6
  | .outputOverflow => 7
  | .badSlotValue => 8

/-- STATUSW field STATE, bits 2:0 (R35). -/
def Status.stateField : Status → BitVec 3
  | .idle => 0
  | .running => 1
  | .halted => 2
  | .oracleDone _ => 3
  | .faulted _ => 4

/-- STATUSW field DIGIT, bits 5:3: the oracle's digit, else 0 (R35). -/
def Status.digitField : Status → BitVec 3
  | .idle => 0
  | .running => 0
  | .halted => 0
  | .oracleDone d => BitVec.ofFin d
  | .faulted _ => 0

/-- STATUSW field CAUSE, bits 11:8: the fault code, else 0 (R35). -/
def Status.causeField : Status → BitVec 4
  | .idle => 0
  | .running => 0
  | .halted => 0
  | .oracleDone _ => 0
  | .faulted code => code.code

/-- STATUSW field MODE, bit 6: the mode of the current or last run; 0 when Idle (R35). -/
def State.modeField (s : State) : BitVec 1 :=
  match s.status, s.mode with
  | .idle, _ => 0
  | _, .run => 0
  | _, .oracle => 1

/-- STATUSW (R35): bits 15:12 and bit 7 are reserved and read 0. -/
def State.statusw (s : State) : StatusWord :=
  0#4 ++ s.status.causeField ++ 0#1 ++ s.modeField ++ s.status.digitField ++ s.status.stateField

end Sys2Proof.Machine
end

