-- ==== Sys2Proof/Machine/HostPort.lean ====
section
/-! DEFINITION. What the host may read (`10_state.md` R41 to R43). STATUSW, readable always, is `State.statusw`. A reading
the spec does not define is `none`; log entry 7. -/

namespace Sys2Proof.Machine

/-- OUT, "readable once STATUS is `Halted` (the source's `run` result)" (R41). -/
def State.hostOut (s : State) : Option (List Digit) :=
  match s.status with
  | .idle => none
  | .running => none
  | .halted => some s.out
  | .oracleDone _ => none
  | .faulted _ => none

/-- DIGIT, "readable once STATUS is `OracleDone(d)` (the source's `step_once` result)" (R41, R115). -/
def State.hostDigit (s : State) : Option Digit :=
  match s.status with
  | .idle => none
  | .running => none
  | .halted => none
  | .oracleDone d => some d
  | .faulted _ => none

/-- A, B and C, readable once STATUS is final (R41). -/
def State.hostReg (s : State) (r : Reg) : Option Int :=
  if s.status.final then some (s.readReg r) else none

/-- PC, readable once STATUS is final (R41). -/
def State.hostPc (s : State) : Option Nat :=
  if s.status.final then some s.pc else none

/-- How the host, not the block, renders OUT as text (R42): decimal digits joined by single commas. -/
def renderOut (out : List Digit) : String := ",".intercalate (out.map fun d => toString d.val)

end Sys2Proof.Machine
end

