-- ==== Sys2Proof/Machine/Run.lean ====
section
/-! DEFINITION. Runs (`40_cycle.md` R87): the states that repeated steps give, until STATUS is final. -/

namespace Sys2Proof.Machine

/-- The state after at most `k` steps. A state in which no step happens persists (R133). -/
def runSteps : Nat → State → State
  | 0, s => s
  | k + 1, s =>
    match step s with
    | .next t => runSteps k t
    | .fault _ => s
    | .refused _ => s

/-- A jump that would be taken stands at PC: opcode 3 is fetched in run mode with A ≠ 0 (R100). -/
def takesJump (s : State) : Bool :=
  match fetch s with
  | .ok i => i.isJump && decide (s.a ≠ 0) && decide (s.mode = .run)
  | .error _ => false

end Sys2Proof.Machine
end

