-- ==== Sys2Proof/Machine/Start.lean ====
section
/-! DEFINITION. The Start transaction, the engine's one input and its only reset (`70_reset_and_hazards.md` R135 to R141). -/

namespace Sys2Proof.Machine

/-- The arguments of `Start(mode, prog, a0, b0, c0)` (R41): the host gives the program as integers of any value. -/
structure StartArgs where
  mode : Mode
  prog : List Int
  a0 : Int
  b0 : Int
  c0 : Int
  deriving DecidableEq, Repr

/-- Whether a value lies in [-2^(W-1), 2^(W-1) - 1] for a finite `REG_WIDTH` W (R11); always, for the unbounded one. -/
def fitsRegister (cfg : Config) (v : Int) : Bool :=
  match cfg.regWidth with
  | none => true
  | some w => decide (-((2 ^ (w - 1) : Nat) : Int) ≤ v) && decide (v ≤ ((2 ^ (w - 1) : Nat) : Int) - 1)

/-- `validate(prog, a0, b0, c0)`: the first LoadError that applies after BUSY, or none (R140). Which operand values stand
in which slots is not inspected (R141). -/
def validate (cfg : Config) (q : StartArgs) : Option LoadError :=
  if q.prog.length % 2 = 1 then some .oddLength
  else if cfg.progMax < q.prog.length then some .progTooLong
  else if !q.prog.all (fun v => decide (0 ≤ v) && decide (v ≤ 7)) then some .digitRange
  else if !(fitsRegister cfg q.a0 && fitsRegister cfg q.b0 && fitsRegister cfg q.c0) then some .regRange
  else none

/-- The state an accepted Start makes (R136, R137). -/
def started (cfg : Config) (q : StartArgs) : State :=
  { a := q.a0, b := q.b0, c := q.c0, pc := 0, out := [], mode := q.mode, status := .running,
    prog := q.prog.map Int.toNat, config := cfg }

/-- The Start transaction (R136): the new state, or the reason of the rejection, upon which no state changes. -/
def start (q : StartArgs) (s : State) : Except LoadError State :=
  if s.status = .running then .error .busy
  else
    match validate s.config q with
    | some e => .error e
    | none => .ok (started s.config q)

end Sys2Proof.Machine
end

