-- ==== Sys2Proof/Safety.lean ====
section
/-! DEFINITION. The terms claims are made in: what an end of a run says of the state, the invariant of every state a run
reaches, and a run that ends well (`40_cycle.md` R88, `60_exceptions.md` R117, R119). -/

namespace Sys2Proof.Machine

/-- What is true of the state in which the engine stopped with the fault `code` (R117 "cause", R119 "what a fault
records"). Since a fault changes STATUS alone (R118), it is also true of the state before the faulting step.
The cause of BAD_SLOT_VALUE is one of the two slots fetched, at PC and PC + 1; it is "unreachable with 3-bit slots and
validated loads". -/
def causeHolds (code : FaultCode) (s : State) : Prop :=
  match code with
  | .reservedCombo =>
    fetch s ∈ [.ok (.shiftA .reserved), .ok (.modB .reserved), .ok (.emit .reserved), .ok (.shiftB .reserved),
      .ok (.shiftC .reserved)]
  | .negShift =>
    ∃ r, s.readReg r < 0 ∧ fetch s ∈ [.ok (.shiftA (.reg r)), .ok (.shiftB (.reg r)), .ok (.shiftC (.reg r))]
  | .operandBeyondEnd => s.pc + 1 = s.prog.length
  | .oracleNoEmit => s.mode = .oracle ∧ s.prog.slot? s.pc = some 3 ∧ s.out = []
  | .oracleMultiEmit => s.mode = .oracle ∧ s.prog.slot? s.pc = some 3 ∧ 2 ≤ s.out.length
  | .oracleNoJump => s.mode = .oracle ∧ s.prog.length ≤ s.pc
  | .outputOverflow => s.outFull = true ∧ ∃ x v, fetch s = .ok (.emit x) ∧ comboValue s x = .ok v
  | .badSlotValue =>
    ∃ o x, s.prog.slot? s.pc = some o ∧ s.prog.slot? (s.pc + 1) = some x ∧ (7 < o ∨ 7 < x)

/-- The invariant of the engine: it holds at power-on, every accepted Start makes it hold and every step keeps it. -/
structure Inv (s : State) : Prop where
  /-- the parameters are as R10 has them -/
  configWf : s.config.wf = true
  /-- PROG holds an even number of slots, each in 0..7 (R38) -/
  progWf : s.prog.wf = true
  /-- PROG fits the program store (R45) -/
  progFits : s.prog.length ≤ s.config.progMax
  /-- "PC never exceeds max(L, 7)" (R31) -/
  pcBound : s.pc ≤ max s.prog.length 7
  /-- OUT never holds more than `OUT_CAPACITY` digits (R37) -/
  outFits : ∀ n, s.config.outCapacity = some n → s.out.length ≤ n
  /-- every register holds a value of `REG_WIDTH` bits (R11) -/
  regsFit : ∀ r, fitsRegister s.config (s.readReg r) = true
  /-- an Idle engine has run nothing: its MODE is Run, whose STATUSW bit is the 0 of R35 -/
  idleMode : s.status = .idle → s.mode = .run
  /-- in oracle mode PC is always even (R112) -/
  oraclePcEven : s.mode = .oracle → s.pc % 2 = 0
  /-- Halted is reached in run mode, past the end of the program only (R102) -/
  haltedPastEnd : s.status = .halted → s.mode = .run ∧ s.prog.length ≤ s.pc
  /-- OracleDone(d) is reached in oracle mode, at an opcode 3, with exactly the digit d emitted (R108) -/
  oracleDoneDigit : ∀ d, s.status = .oracleDone d →
    s.mode = .oracle ∧ s.out = [d] ∧ s.prog.slot? s.pc = some 3
  /-- a Faulted state shows the cause of its code (R117, R119) -/
  faultCause : ∀ code, s.status = .faulted code → causeHolds code s

/-- The states that Starts and steps reach from power-on with the given parameters (R34, R87). -/
inductive Reachable (cfg : Config) : State → Prop where
  | powerOn : Reachable cfg (State.powerOn cfg)
  | start {s t : State} {q : StartArgs} : Reachable cfg s → start q s = .ok t → Reachable cfg t
  | step {s t : State} : Reachable cfg s → step s = .next t → Reachable cfg t

/-- A run that never faults: the premise R88 asks of a claim about a run. -/
def NeverFaults (s : State) : Prop := ∀ k code, (runSteps k s).status ≠ .faulted code

/-- What no instruction but emit may change beside STATUS (R26, R33, R36, R38): OUT, MODE, every slot of PROG and its
length, and the parameters. -/
def StoresKept (s t : State) : Prop :=
  t.out = s.out ∧ t.mode = s.mode ∧ t.config = s.config ∧ t.prog.length = s.prog.length ∧
    ∀ i, t.prog.slot? i = s.prog.slot? i

/-- STATUS after an instruction: as before, or Faulted (R118). -/
def StatusKeptOrFaulted (s t : State) : Prop := t.status = s.status ∨ ∃ code, t.status = .faulted code

/-- A value of two's-complement width at most `w` (R23). -/
def withinWidth (w : Nat) (v : Int) : Prop := -(2 ^ (w - 1) : Int) ≤ v ∧ v < (2 ^ (w - 1) : Int)

end Sys2Proof.Machine
end

