-- ==== Sys2Proof/Certificates/Slice0/Obligations.lean ====
section
/-! DEFINITION. The statements for the provers. Each docstring names the rule of spec/ it formalises; `pc`, `a`, `b`,
`c`, `out`, `prog` are the fields of State, `s.prog.length` is L, and a fault is a next state with STATUS Faulted.
The effect of an instruction is stated of `exec`, which looks at neither STATUS nor MODE (log entry 9); where a clause
ranges over literal operand numbers above 7, which no word encodes, its value there is the model's (log entry 10). -/

open Sys2Proof Sys2Proof.Machine

/-! ### Encoding -/

/-- Decode and encode agree on every well-formed instruction, in slots and in the packed notation (R59 to R66). That a
packed word may be read in more than 6 bits is the model's choice (log entry 6). -/
def Obligations.DecodeInvertsEncode : Prop :=
  ∀ i : Instr, i.wf = true →
    encode i = [i.opcode, i.operand] ∧ decode i.opcode i.operand = .ok i ∧
    packedWord i < 64 ∧ ∀ n, 6 ≤ n → decodeTableWord n (packedWord i) = some i

/-- Decoding is total on 0..7 × 0..7, answers a well-formed instruction whose encoding is exactly the pair decoded, and
rejects every other pair by name (R70, R72; R72 is marked derived in the spec). -/
def Obligations.DecodeIsTotalAndFaithful : Prop :=
  (∀ o x, o ≤ 7 → x ≤ 7 → ∃ i, decode o x = .ok i) ∧
  (∀ o x i, decode o x = .ok i → i.wf = true ∧ encode i = [o, x]) ∧
  (∀ o x, 7 < o ∨ 7 < x → decode o x = .error .badSlotValue)

/-- R66: the opcode map. The table has the eight rows of the rule; each packed word belongs to exactly one row, the one
its opcode field numbers, and decodes to that row's instruction with that row's operand kind. -/
def Obligations.OpcodeMapIsComplete : Prop :=
  opcodeTable.map (fun r => (r.mnemonic, r.kind, r.pattern, r.mask)) =
    [("shift-A", .combo, 0b000000, 0b111000), ("xor-B-literal", .literal, 0b001000, 0b111000),
     ("mod-B", .combo, 0b010000, 0b111000), ("jump-if-A-nonzero", .literal, 0b011000, 0b111000),
     ("xor-B-C", .ignored, 0b100000, 0b111000), ("emit", .combo, 0b101000, 0b111000),
     ("shift-B", .combo, 0b110000, 0b111000), ("shift-C", .combo, 0b111000, 0b111000)] ∧
  ∀ o, o ≤ 7 → ∀ x, x ≤ 7 → ∃ i r, decodeTableWord 6 (o * 8 + x) = some i ∧ opcodeTable[o]? = some r ∧
    rowsOf (o * 8 + x) = [r] ∧ i.mnemonic = r.mnemonic ∧ i.kind = r.kind ∧ encode i = [o, x]

/-- R61: the packed word `w = o * 8 + x` has `w[5:3] = o` and `w[2:0] = x`, and stands for the pair (o, x). -/
def Obligations.PackedWordIsNotationForThePair : Prop :=
  ∀ o x, o ≤ 7 → x ≤ 7 →
    (BitVec.ofNat 6 (o * 8 + x)).extractLsb' 3 3 = BitVec.ofNat 3 o ∧
    (BitVec.ofNat 6 (o * 8 + x)).extractLsb' 0 3 = BitVec.ofNat 3 x ∧
    ∀ i, decodeTableWord 6 (o * 8 + x) = some i ↔ decode o x = .ok i

/-- Words written out bit by bit from the patterns of R66 decode to the instructions they stand for. That a word with a
bit above bit 5 decodes to none is the model's choice (log entry 6), no rule of the spec. -/
def Obligations.SampleWordsDecode : Prop :=
  decodeTableWord 6 0b000001 = some (.shiftA (.lit 1)) ∧
  decodeTableWord 6 0b001011 = some (.xorBLiteral 3) ∧
  decodeTableWord 6 0b010100 = some (.modB (.reg .A)) ∧
  decodeTableWord 6 0b011101 = some (.jumpIfANonzero 5) ∧
  decodeTableWord 6 0b100010 = some (.xorBC 2) ∧
  decodeTableWord 6 0b101110 = some (.emit (.reg .C)) ∧
  decodeTableWord 6 0b110101 = some (.shiftB (.reg .B)) ∧
  decodeTableWord 6 0b111000 = some (.shiftC (.lit 0)) ∧
  decodeTableWord 8 0b01000000 = none

/-! ### Operands -/

/-- R79: the value of a combo operand field x. -/
def Obligations.ComboOperandValue : Prop :=
  ∀ s : State,
    (∀ x, x ≤ 3 → ∃ k, decodeCombo x = .ok k ∧ comboValue s k = .ok (x : Int)) ∧
    (∃ k, decodeCombo 4 = .ok k ∧ comboValue s k = .ok s.a) ∧
    (∃ k, decodeCombo 5 = .ok k ∧ comboValue s k = .ok s.b) ∧
    (∃ k, decodeCombo 6 = .ok k ∧ comboValue s k = .ok s.c) ∧
    (∃ k, decodeCombo 7 = .ok k ∧ comboValue s k = .error .reservedCombo)

/-- R80 and R69: a literal operand is its own value and never faults, and operand 7 is legal wherever the operand is not
a combo operand. -/
def Obligations.LiteralOperandsNeverFault : Prop :=
  (∀ x, x ≤ 7 → decodeLiteral x = .ok x ∧ literalValue x = (x : Int) ∧ 0 ≤ literalValue x ∧ literalValue x ≤ 7) ∧
  decodeTableWord 6 0b001111 = some (.xorBLiteral 7) ∧
  decodeTableWord 6 0b011111 = some (.jumpIfANonzero 7) ∧
  decodeTableWord 6 0b100111 = some (.xorBC 7) ∧
  ∀ (s : State) (x : Nat), ∀ i ∈ [Instr.xorBLiteral x, .jumpIfANonzero x, .xorBC x],
    ∃ t, exec i s = .next t ∧ t.status = s.status

/-- R68: the five reserved encodings decode to their instructions; executing one faults RESERVED_COMBO with every other
part of the state as it was; and the load validation answers the same whatever in-range values stand in the slots. -/
def Obligations.ReservedCombosFaultOnlyWhenExecuted : Prop :=
  decodeTableWord 6 0b000111 = some (.shiftA .reserved) ∧
  decodeTableWord 6 0b010111 = some (.modB .reserved) ∧
  decodeTableWord 6 0b101111 = some (.emit .reserved) ∧
  decodeTableWord 6 0b110111 = some (.shiftB .reserved) ∧
  decodeTableWord 6 0b111111 = some (.shiftC .reserved) ∧
  (∀ s : State, ∀ i ∈ [Instr.shiftA .reserved, .modB .reserved, .emit .reserved, .shiftB .reserved, .shiftC .reserved],
    exec i s = .next { s with status := .faulted .reservedCombo }) ∧
  (∀ (cfg : Config) (q : StartArgs) (p : List Int), p.length = q.prog.length →
    (∀ v ∈ p, 0 ≤ v ∧ v ≤ 7) → (∀ v ∈ q.prog, 0 ≤ v ∧ v ≤ 7) →
    validate cfg { q with prog := p } = validate cfg q)

/-! ### Integer primitives -/

/-- R83: the shift is `floor(v / 2^n)` for every `n ≥ 0` however large, it is the sign-copying shift of the
two's-complement bits, and a negative amount makes the three shift instructions fault NEG_SHIFT. -/
def Obligations.ShiftIsFloorOfDivision : Prop :=
  (∀ v n : Int, 0 ≤ n →
    sar v n * 2 ^ n.toNat ≤ v ∧ (∀ m : Int, m * 2 ^ n.toNat ≤ v → m ≤ sar v n) ∧
    (∀ i : Nat, (sar v n).testBit i = v.testBit (i + n.toNat)) ∧
    (-(2 ^ n.toNat) ≤ v → v < 2 ^ n.toNat → sar v n = if v < 0 then -1 else 0)) ∧
  (∀ v : Int, sar v 0 = v) ∧
  (∀ (s : State) (r : Reg), s.readReg r < 0 →
    ∀ i ∈ [Instr.shiftA (.reg r), .shiftB (.reg r), .shiftC (.reg r)],
      exec i s = .next { s with status := .faulted .negShift })

/-- R84: `mod8(v)` is the unique r in 0..7 with v - r divisible by 8, and the low three two's-complement bits of v. -/
def Obligations.ModuloEightIsEuclidean : Prop :=
  (∀ v : Int, (8 : Int) ∣ v - ((mod8 v).val : Int) ∧
    (∀ r : Int, 0 ≤ r → r ≤ 7 → (8 : Int) ∣ v - r → r = ((mod8 v).val : Int)) ∧
    (∀ i, i < 3 → (mod8 v).val.testBit i = v.testBit i)) ∧
  (∀ n : Nat, (mod8 (n : Int)).val = n % 8) ∧
  mod8 (-3) = 5 ∧ mod8 (-8) = 0 ∧ mod8 13 = 5

/-- R85: exclusive or on the infinite two's-complement bits, its three identities for `~n = -n - 1`, its sign and the
rule's examples. -/
def Obligations.XorIsBitwiseOnTwosComplement : Prop :=
  (∀ (v w : Int) (i : Nat), (xorInt v w).testBit i = (v.testBit i ^^ w.testBit i)) ∧
  (∀ n m : Nat, xorInt n m = ((n ^^^ m : Nat) : Int) ∧
    xorInt (-(n : Int) - 1) m = -((n ^^^ m : Nat) : Int) - 1 ∧
    xorInt n (-(m : Int) - 1) = -((n ^^^ m : Nat) : Int) - 1 ∧
    xorInt (-(n : Int) - 1) (-(m : Int) - 1) = ((n ^^^ m : Nat) : Int)) ∧
  (∀ v w : Int, xorInt v w < 0 ↔ ((v < 0 ∧ 0 ≤ w) ∨ (0 ≤ v ∧ w < 0))) ∧
  xorInt (-1) 5 = -6 ∧ xorInt (-8) 7 = -1 ∧ xorInt 29 7 = 26

/-- The unbounded registers are exact for a realisation of finite width (R11, R21; R11 is marked derived in the spec): on
values of at least 4 bits that fit, the W-bit two's-complement shift, exclusive or and low three bits give the same
values, and the results fit. -/
def Obligations.FiniteWidthRegistersAreExact : Prop :=
  ∀ (w : Nat) (u v : Int), 4 ≤ w → withinWidth w u → withinWidth w v →
    (∀ n : Int, 0 ≤ n → ((BitVec.ofInt w u).sshiftRight n.toNat).toInt = sar u n ∧ withinWidth w (sar u n)) ∧
    (BitVec.ofInt w u ^^^ BitVec.ofInt w v).toInt = xorInt u v ∧ withinWidth w (xorInt u v) ∧
    (BitVec.ofInt w u).toNat % 8 = (mod8 u).val ∧ withinWidth w ((mod8 u).val : Int)

/-! ### The eight instructions -/

/-- R91, shift-A: encoding, effect, its two faults, the corner cases and the example. -/
def Obligations.ShiftAWritesA : Prop :=
  (∀ x k, decodeCombo x = .ok k → decode 0 x = .ok (.shiftA k)) ∧
  ∀ s : State,
    (∀ k n, comboValue s k = .ok n → 0 ≤ n →
      exec (.shiftA k) s = .next { s with a := sar s.a n, pc := s.pc + 2 }) ∧
    (∀ k n, comboValue s k = .ok n → n < 0 → exec (.shiftA k) s = .next { s with status := .faulted .negShift }) ∧
    exec (.shiftA .reserved) s = .next { s with status := .faulted .reservedCombo } ∧
    exec (.shiftA (.lit 0)) s = .next { s with pc := s.pc + 2 } ∧
    (0 ≤ s.a → exec (.shiftA (.reg .A)) s = .next { s with a := 0, pc := s.pc + 2 }) ∧
    (s.a < 0 → exec (.shiftA (.reg .A)) s = .next { s with status := .faulted .negShift }) ∧
    (∀ (k : Combo) (n : Int) (w : Nat), comboValue s k = .ok n → (w : Int) ≤ n → -(2 ^ w) ≤ s.a → s.a < 2 ^ w →
      exec (.shiftA k) s = .next { s with a := if s.a < 0 then -1 else 0, pc := s.pc + 2 }) ∧
    (s.a = -5 → exec (.shiftA (.lit 1)) s = .next { s with a := -3, pc := s.pc + 2 }) ∧
    (s.a = 729 → exec (.shiftA (.lit 1)) s = .next { s with a := 364, pc := s.pc + 2 })

/-- R92, shift-B: A is not changed, B is. -/
def Obligations.ShiftBWritesB : Prop :=
  (∀ x k, decodeCombo x = .ok k → decode 6 x = .ok (.shiftB k)) ∧
  ∀ s : State,
    (∀ k n, comboValue s k = .ok n → 0 ≤ n →
      exec (.shiftB k) s = .next { s with b := sar s.a n, pc := s.pc + 2 }) ∧
    (∀ k n, comboValue s k = .ok n → n < 0 → exec (.shiftB k) s = .next { s with status := .faulted .negShift }) ∧
    exec (.shiftB .reserved) s = .next { s with status := .faulted .reservedCombo } ∧
    (0 ≤ s.b → exec (.shiftB (.reg .B)) s = .next { s with b := sar s.a s.b, pc := s.pc + 2 }) ∧
    (0 ≤ s.a → exec (.shiftB (.reg .A)) s = .next { s with b := 0, pc := s.pc + 2 }) ∧
    exec (.shiftB (.lit 0)) s = .next { s with b := s.a, pc := s.pc + 2 }

/-- R93, shift-C: A is not changed, C is. -/
def Obligations.ShiftCWritesC : Prop :=
  (∀ x k, decodeCombo x = .ok k → decode 7 x = .ok (.shiftC k)) ∧
  ∀ s : State,
    (∀ k n, comboValue s k = .ok n → 0 ≤ n →
      exec (.shiftC k) s = .next { s with c := sar s.a n, pc := s.pc + 2 }) ∧
    (∀ k n, comboValue s k = .ok n → n < 0 → exec (.shiftC k) s = .next { s with status := .faulted .negShift }) ∧
    exec (.shiftC .reserved) s = .next { s with status := .faulted .reservedCombo } ∧
    (0 ≤ s.c → exec (.shiftC (.reg .C)) s = .next { s with c := sar s.a s.c, pc := s.pc + 2 }) ∧
    (s.a = 64 → s.c = 3 → exec (.shiftC (.reg .C)) s = .next { s with c := 8, pc := s.pc + 2 })

/-- R94: a negative shift amount faults NEG_SHIFT before any write, and only a register can give one. -/
def Obligations.NegativeShiftAmountFaults : Prop :=
  (∀ (s : State) (k : Combo) (n : Int), comboValue s k = .ok n → n < 0 →
    (∃ r, k = .reg r ∧ s.readReg r = n) ∧
    ∀ i ∈ [Instr.shiftA k, .shiftB k, .shiftC k], exec i s = .next { s with status := .faulted .negShift }) ∧
  (∀ (s t : State) (k : Combo), s.status = .running →
    ∀ i ∈ [Instr.shiftA k, .shiftB k, .shiftC k], exec i s = .next t → t.status = .faulted .negShift →
      t = { s with status := .faulted .negShift } ∧ ∃ r, k = .reg r ∧ s.readReg r < 0)

/-- R95, xor-B-literal: encoding, effect, no fault, only bits 2:0 of B change, the sign is kept, the examples. -/
def Obligations.XorBLiteralWritesB : Prop :=
  (∀ x, x ≤ 7 → decode 1 x = .ok (.xorBLiteral x)) ∧
  (∀ (s : State) (x : Nat), exec (.xorBLiteral x) s = .next { s with b := xorInt s.b x, pc := s.pc + 2 }) ∧
  (∀ s : State, exec (.xorBLiteral 0) s = .next { s with pc := s.pc + 2 }) ∧
  (∀ (v : Int) (x : Nat), x ≤ 7 → (∀ i, 3 ≤ i → (xorInt v x).testBit i = v.testBit i) ∧ (xorInt v x < 0 ↔ v < 0)) ∧
  xorInt (-8) 7 = -1 ∧ xorInt 29 7 = 26

/-- R96, mod-B: encoding, effect, its one fault, and the corner cases. -/
def Obligations.ModBWritesB : Prop :=
  (∀ x k, decodeCombo x = .ok k → decode 2 x = .ok (.modB k)) ∧
  (∀ (s : State) (k : Combo) (v : Int), comboValue s k = .ok v →
    exec (.modB k) s = .next { s with b := ((mod8 v).val : Int), pc := s.pc + 2 }) ∧
  (∀ s : State, exec (.modB .reserved) s = .next { s with status := .faulted .reservedCombo }) ∧
  (∀ (s : State) (x : Nat), x ≤ 3 → exec (.modB (.lit x)) s = .next { s with b := x, pc := s.pc + 2 }) ∧
  (∀ s : State, s.c = -1 → exec (.modB (.reg .C)) s = .next { s with b := 7, pc := s.pc + 2 }) ∧
  (∀ s : State, s.b = -13 → exec (.modB (.reg .B)) s = .next { s with b := 3, pc := s.pc + 2 }) ∧
  (∀ s : State, s.c = 9 → exec (.modB (.reg .C)) s = .next { s with b := 1, pc := s.pc + 2 }) ∧
  (∀ (s t : State) (k : Combo) (v : Int), comboValue s k = .ok v → exec (.modB k) s = .next t → 0 ≤ t.b ∧ t.b ≤ 7)

/-- R97, xor-B-C: encoding with any operand, effect, no fault, the same result for every operand, the corner cases. -/
def Obligations.XorBCWritesB : Prop :=
  (∀ x, x ≤ 7 → decode 4 x = .ok (.xorBC x)) ∧
  (∀ (s : State) (x : Nat), exec (.xorBC x) s = .next { s with b := xorInt s.b s.c, pc := s.pc + 2 }) ∧
  (∀ (s : State) (x : Nat), s.b = s.c → exec (.xorBC x) s = .next { s with b := 0, pc := s.pc + 2 }) ∧
  xorInt (-1) 5 = -6 ∧ xorInt 6 3 = 5 ∧ xorInt 2024 43690 = 44354

/-- R100, jump-if-A-nonzero: encoding, the taken and the not-taken jump of run mode, no fault; a target at or beyond L
halts the engine at the next step; a target equal to PC is a hang; in oracle mode it is never executed. -/
def Obligations.JumpIfANonzeroSetsPc : Prop :=
  (∀ x, x ≤ 7 → decode 3 x = .ok (.jumpIfANonzero x)) ∧
  (∀ (s : State) (x : Nat), s.a ≠ 0 → exec (.jumpIfANonzero x) s = .next { s with pc := x }) ∧
  (∀ (s : State) (x : Nat), s.a = 0 → exec (.jumpIfANonzero x) s = .next { s with pc := s.pc + 2 }) ∧
  (∀ (s : State) (x : Nat), s.status = .running → s.mode = .run → s.prog.length ≤ x → s.a ≠ 0 →
    exec (.jumpIfANonzero x) s = .next { s with pc := x } ∧
    step { s with pc := x } = .next { s with pc := x, status := .halted }) ∧
  (∀ s : State, s.status = .running → s.mode = .run → s.a ≠ 0 → fetch s = .ok (.jumpIfANonzero s.pc) →
    ∀ k, runSteps k s = s) ∧
  (∀ (s : State) (x : Nat), s.status = .running → s.mode = .oracle → fetch s = .ok (.jumpIfANonzero x) →
    ∃ t, step s = .next t ∧ t.pc = s.pc ∧ t.status.final = true)

/-- R101: the target of a taken jump is the literal itself. The next step halts for a target at or past L (in oracle mode,
which no taken jump reaches, that PC faults ORACLE_NO_JUMP), faults OPERAND_BEYOND_END for the target L - 1, and else
executes the pair at the target, odd or even. -/
def Obligations.JumpTargetIsUnchecked : Prop :=
  ∀ (s : State) (x : Nat), s.status = .running → s.mode = .run → s.a ≠ 0 → fetch s = .ok (.jumpIfANonzero x) →
    step s = .next { s with pc := x } ∧
    (s.prog.length ≤ x → step { s with pc := x } = .next { s with pc := x, status := .halted }) ∧
    (s.prog.length ≤ x → step { s with pc := x, mode := .oracle } =
      .next { s with pc := x, mode := .oracle, status := .faulted .oracleNoJump }) ∧
    (x + 1 = s.prog.length →
      step { s with pc := x } = .next { s with pc := x, status := .faulted .operandBeyondEnd }) ∧
    (∀ o y i, s.prog.slot? x = some o → s.prog.slot? (x + 1) = some y → decode o y = .ok i →
      step { s with pc := x } = exec i { s with pc := x })

/-- R103, emit: encoding, effect, its two faults, and the digits of the corner cases. -/
def Obligations.EmitAppendsOneDigit : Prop :=
  (∀ x k, decodeCombo x = .ok k → decode 5 x = .ok (.emit k)) ∧
  (∀ (s : State) (k : Combo) (v : Int), comboValue s k = .ok v →
    (∀ n, s.config.outCapacity = some n → s.out.length ≠ n) →
    exec (.emit k) s = .next { s with out := s.out ++ [mod8 v], pc := s.pc + 2 }) ∧
  (∀ (s : State) (k : Combo) (v : Int) (n : Nat), comboValue s k = .ok v → s.config.outCapacity = some n →
    s.out.length = n → exec (.emit k) s = .next { s with status := .faulted .outputOverflow }) ∧
  (∀ s : State, exec (.emit .reserved) s = .next { s with status := .faulted .reservedCombo }) ∧
  (∀ x : Nat, x ≤ 3 → (mod8 (x : Int)).val = x) ∧ mod8 (-3) = 5 ∧ mod8 364 = 4

/-- R104: with a finite capacity an emit into a full OUT faults and appends nothing; with `unbounded` never. -/
def Obligations.FullOutputFaults : Prop :=
  (∀ (s : State) (k : Combo) (v : Int) (n : Nat), comboValue s k = .ok v → s.config.outCapacity = some n →
    s.out.length = n → exec (.emit k) s = .next { s with status := .faulted .outputOverflow }) ∧
  (∀ (s t : State) (i : Instr), s.config.outCapacity = none → s.status = .running → exec i s = .next t →
    t.status ≠ .faulted .outputOverflow)

/-- R145: an instruction that names one register as source and destination reads the old value and writes the new. -/
def Obligations.SourceIsReadBeforeDestinationIsWritten : Prop :=
  ∀ s : State,
    (0 ≤ s.a → exec (.shiftA (.reg .A)) s = .next { s with a := sar s.a s.a, pc := s.pc + 2 }) ∧
    exec (.modB (.reg .B)) s = .next { s with b := ((mod8 s.b).val : Int), pc := s.pc + 2 } ∧
    (0 ≤ s.b → exec (.shiftB (.reg .B)) s = .next { s with b := sar s.a s.b, pc := s.pc + 2 }) ∧
    (0 ≤ s.c → exec (.shiftC (.reg .C)) s = .next { s with c := sar s.a s.c, pc := s.pc + 2 }) ∧
    (∀ x : Nat, exec (.xorBLiteral x) s = .next { s with b := xorInt s.b x, pc := s.pc + 2 }) ∧
    (∀ x : Nat, exec (.xorBC x) s = .next { s with b := xorInt s.b s.c, pc := s.pc + 2 })

/-! ### Frames -/

/-- The frame of the six instructions that write a register (R26; marked derived in the spec): the other two registers,
OUT, MODE, every slot of PROG and the parameters are unchanged, and STATUS is kept or Faulted. -/
def Obligations.RegisterInstructionsFrame : Prop :=
  ∀ (s t : State) (k : Combo) (x : Nat),
    (exec (.shiftA k) s = .next t → t.b = s.b ∧ t.c = s.c ∧ StoresKept s t ∧ StatusKeptOrFaulted s t) ∧
    (exec (.shiftC k) s = .next t → t.a = s.a ∧ t.b = s.b ∧ StoresKept s t ∧ StatusKeptOrFaulted s t) ∧
    (∀ i ∈ [Instr.xorBLiteral x, .modB k, .xorBC x, .shiftB k], exec i s = .next t →
      t.a = s.a ∧ t.c = s.c ∧ StoresKept s t ∧ StatusKeptOrFaulted s t)

/-- The frame of jump-if-A-nonzero (PC only) and of emit (OUT only, by at most one digit at its end) (R26). -/
def Obligations.JumpAndEmitFrame : Prop :=
  (∀ (s t : State) (x : Nat), exec (.jumpIfANonzero x) s = .next t → t = { s with pc := t.pc }) ∧
  (∀ (s t : State) (k : Combo), exec (.emit k) s = .next t →
    t.a = s.a ∧ t.b = s.b ∧ t.c = s.c ∧ t.mode = s.mode ∧ t.config = s.config ∧
    t.prog.length = s.prog.length ∧ (∀ i, t.prog.slot? i = s.prog.slot? i) ∧ StatusKeptOrFaulted s t ∧
    (∀ j, j < s.out.length → t.out[j]? = s.out[j]?) ∧
    (t.out = s.out ∨ ∃ v, comboValue s k = .ok v ∧ t.out = s.out ++ [mod8 v]))

/-- What an instruction reads (the "reads" column of R26; marked derived in the spec): two states that agree on the
registers the column names, on PC, STATUS and OUT's capacity check get the same written register, PC, STATUS and
appended digits, whatever the other registers, MODE and PROG hold. A destination that the column does not name among the
sources is left as it was where the form faults; its old value is assumed equal there, and only there. -/
def Obligations.InstructionsReadOnlyTheirSources : Prop :=
  ∀ (s s' t t' : State) (k : Combo) (x : Nat), s.pc = s'.pc → s.status = s'.status →
    (s.a = s'.a → comboValue s k = comboValue s' k →
      (exec (.shiftA k) s = .next t → exec (.shiftA k) s' = .next t' →
        t.a = t'.a ∧ t.pc = t'.pc ∧ t.status = t'.status) ∧
      (exec (.shiftB k) s = .next t → exec (.shiftB k) s' = .next t' →
        ((∃ n, comboValue s k = .ok n ∧ 0 ≤ n) ∨ s.b = s'.b → t.b = t'.b) ∧ t.pc = t'.pc ∧ t.status = t'.status) ∧
      (exec (.shiftC k) s = .next t → exec (.shiftC k) s' = .next t' →
        ((∃ n, comboValue s k = .ok n ∧ 0 ≤ n) ∨ s.c = s'.c → t.c = t'.c) ∧ t.pc = t'.pc ∧ t.status = t'.status)) ∧
    (s.b = s'.b → exec (.xorBLiteral x) s = .next t → exec (.xorBLiteral x) s' = .next t' →
      t.b = t'.b ∧ t.pc = t'.pc ∧ t.status = t'.status) ∧
    (comboValue s k = comboValue s' k → exec (.modB k) s = .next t → exec (.modB k) s' = .next t' →
      ((∃ v, comboValue s k = .ok v) ∨ s.b = s'.b → t.b = t'.b) ∧ t.pc = t'.pc ∧ t.status = t'.status) ∧
    (s.a = s'.a → exec (.jumpIfANonzero x) s = .next t → exec (.jumpIfANonzero x) s' = .next t' →
      t.pc = t'.pc ∧ t.status = t'.status) ∧
    (s.b = s'.b → s.c = s'.c → exec (.xorBC x) s = .next t → exec (.xorBC x) s' = .next t' →
      t.b = t'.b ∧ t.pc = t'.pc ∧ t.status = t'.status) ∧
    (comboValue s k = comboValue s' k → s.outFull = s'.outFull →
      exec (.emit k) s = .next t → exec (.emit k) s' = .next t' →
      t.out.drop s.out.length = t'.out.drop s'.out.length ∧ t.pc = t'.pc ∧ t.status = t'.status)

/-! ### The step -/

/-- A step runs the decoded instruction: where the pair at PC decodes to i, the step of a Running engine is `exec i`,
with nothing around it, but for opcode 3 in oracle mode, where it is the oracle stop (R76, R81, R108). -/
def Obligations.StepRunsTheDecodedInstruction : Prop :=
  ∀ (s : State) (i : Instr), s.status = .running → i.wf = true →
    s.prog.slot? s.pc = some i.opcode → s.prog.slot? (s.pc + 1) = some i.operand →
    fetch s = .ok i ∧
    (s.mode = .run ∨ i.isJump = false → step s = exec i s) ∧
    (s.mode = .oracle → i.isJump = true → step s = .next (oracleStop s))

/-- R76: the step function, check by check, in the order written; a step gives a next state only where STATUS is Running. -/
def Obligations.StepChecksInOrder : Prop :=
  ∀ s : State,
    (s.status ≠ .running → ∀ t, step s ≠ .next t) ∧
    (s.status = .running →
      (s.prog.length ≤ s.pc → s.mode = .oracle → step s = .next { s with status := .faulted .oracleNoJump }) ∧
      (s.prog.length ≤ s.pc → s.mode = .run → step s = .next { s with status := .halted }) ∧
      (s.pc + 1 = s.prog.length → step s = .next { s with status := .faulted .operandBeyondEnd }) ∧
      (s.pc + 1 < s.prog.length → ∃ o x, s.prog.slot? s.pc = some o ∧ s.prog.slot? (s.pc + 1) = some x ∧
        (7 < o ∨ 7 < x → step s = .next { s with status := .faulted .badSlotValue }) ∧
        (o ≤ 7 → x ≤ 7 →
          (s.mode = .oracle → o = 3 → step s = .next (oracleStop s)) ∧
          (s.mode = .run ∨ o ≠ 3 → ∃ i, decode o x = .ok i ∧ step s = exec i s))))

/-- R120: the priority of the conditions. STATUS after a step is what the first condition that holds, in the rule's
order, makes of it; the register a combo field selects is written out here from R79. -/
def Obligations.FirstConditionInOrderIsReported : Prop :=
  ∀ s t : State, s.status = .running → step s = .next t →
    (s.prog.length ≤ s.pc → t.status = if s.mode = .oracle then .faulted .oracleNoJump else .halted) ∧
    (s.pc + 1 = s.prog.length → t.status = .faulted .operandBeyondEnd) ∧
    ∀ o x, s.prog.slot? s.pc = some o → s.prog.slot? (s.pc + 1) = some x →
      t.status =
        if 7 < o ∨ 7 < x then .faulted .badSlotValue
        else if s.mode = .oracle ∧ o = 3 then
          (match s.out with
            | [] => .faulted .oracleNoEmit
            | [d] => .oracleDone d
            | _ => .faulted .oracleMultiEmit)
        else if (o = 0 ∨ o = 2 ∨ o = 5 ∨ o = 6 ∨ o = 7) ∧ x = 7 then .faulted .reservedCombo
        else if (o = 0 ∨ o = 6 ∨ o = 7) ∧ (if x = 4 then s.a else if x = 5 then s.b else if x = 6 then s.c else (x : Int)) < 0
          then .faulted .negShift
        else if o = 5 ∧ s.config.outCapacity = some s.out.length then .faulted .outputOverflow
        else .running

/-- R118 and R86: a fault is precise. The state after a faulting step is the state before it with STATUS changed. -/
def Obligations.FaultsArePrecise : Prop :=
  ∀ (s t : State) (code : FaultCode), step s = .next t → t.status = .faulted code →
    t = { s with status := .faulted code }

/-- R117: the codes, which STATUSW field CAUSE shows, and for each code the cause that holds when the fault is raised and
in the state it leaves. -/
def Obligations.FaultsHaveTheListedCauses : Prop :=
  (FaultCode.reservedCombo.code = 1 ∧ FaultCode.negShift.code = 2 ∧ FaultCode.operandBeyondEnd.code = 3 ∧
    FaultCode.oracleNoEmit.code = 4 ∧ FaultCode.oracleMultiEmit.code = 5 ∧ FaultCode.oracleNoJump.code = 6 ∧
    FaultCode.outputOverflow.code = 7 ∧ FaultCode.badSlotValue.code = 8) ∧
  (∀ code : FaultCode, 1 ≤ code.code.toNat ∧ code.code.toNat ≤ 8) ∧
  (∀ s : State, s.statusw.extractLsb' 8 4 =
    (match s.status with
      | .faulted code => code.code
      | .idle | .running | .halted | .oracleDone _ => 0)) ∧
  ∀ (s t : State) (code : FaultCode), s.status = .running → step s = .next t → t.status = .faulted code →
    causeHolds code s ∧ causeHolds code t

/-- R102: halting. A run-mode step with PC ≥ L halts and changes nothing else; that is the only halt; the final
PC is L after a fall-through and the target after a taken jump; the empty program halts at the first step. -/
def Obligations.HaltIsPcPastTheEnd : Prop :=
  (∀ s : State, s.status = .running → s.mode = .run → s.prog.length ≤ s.pc →
    step s = .next { s with status := .halted }) ∧
  (∀ s t : State, step s = .next t → t.status = .halted → s.status = .running ∧ s.mode = .run ∧
    s.prog.length ≤ s.pc ∧ t = { s with status := .halted }) ∧
  (∀ s t : State, step s = .next t → t.status = .running → t.prog.length ≤ t.pc →
    t.pc = t.prog.length ∨ (s.a ≠ 0 ∧ fetch s = .ok (.jumpIfANonzero t.pc))) ∧
  (∀ (s t : State) (q : StartArgs), start q s = .ok t → q.mode = .run → q.prog = [] →
    step t = .next { t with status := .halted } ∧ t.out = [])

/-- R47 and R50: a fetch reads the pair at PC and PC + 1, at an even and at an odd PC alike, when PC + 1 < L; for PC ≥ L
nothing is fetched, and PC = L - 1 faults OPERAND_BEYOND_END. -/
def Obligations.FetchReadsThePairAtPc : Prop :=
  ∀ s : State,
    (∀ o x i, s.pc + 1 < s.prog.length → s.prog.slot? s.pc = some o → s.prog.slot? (s.pc + 1) = some x →
      decode o x = .ok i → fetch s = .ok i) ∧
    (∀ i, fetch s = .ok i → s.pc + 1 < s.prog.length ∧ s.prog.slot? s.pc = some i.opcode ∧
      s.prog.slot? (s.pc + 1) = some i.operand) ∧
    (s.status = .running → s.mode = .run → s.prog.length ≤ s.pc → step s = .next { s with status := .halted }) ∧
    (s.status = .running → s.pc + 1 = s.prog.length →
      step s = .next { s with status := .faulted .operandBeyondEnd })

/-- R29 and R82: after an instruction PC is PC + 2, except that a taken jump sets it to its literal operand. -/
def Obligations.PcAdvancesByTwoUnlessJumpTaken : Prop :=
  ∀ (s t : State) (i : Instr), fetch s = .ok i → step s = .next t → t.status = .running →
    (∀ x, i = .jumpIfANonzero x → s.a ≠ 0 → t.pc = x) ∧
    ((∀ x, i = .jumpIfANonzero x → s.a = 0) → t.pc = s.pc + 2)

/-- R34: the life of STATUS. Idle at power-on; a Running engine always has a next state and no other engine has one; each
Start makes it Running and only a Start leaves a final STATUS. -/
def Obligations.StatusLifecycle : Prop :=
  (∀ cfg, (State.powerOn cfg).status = .idle) ∧
  (∀ s : State, s.status = .running ↔ ∃ t, step s = .next t) ∧
  (∀ s t : State, step s = .next t → t.status = .running ∨ t.status.final = true) ∧
  (∀ s : State, s.status.final = true → ∀ k, runSteps k s = s) ∧
  (∀ (s t : State) (q : StartArgs), start q s = .ok t → s.status ≠ .running ∧ t.status = .running)

/-- R36: OUT starts empty, only emit writes it, by one digit at its end, and no instruction's effect depends on its
contents (emit compares its length with a finite capacity, R103); the oracle stop reads its length and its first digit. -/
def Obligations.OutputIsAppendOnlyByEmit : Prop :=
  (∀ (s t : State) (q : StartArgs), start q s = .ok t → t.out = []) ∧
  (∀ s t : State, step s = .next t → t.out = s.out ∨
    ∃ k v, fetch s = .ok (.emit k) ∧ comboValue s k = .ok v ∧ t.out = s.out ++ [mod8 v]) ∧
  (∀ (s t : State) (i : Instr) (o : List Digit), s.outFull = State.outFull { s with out := o } → exec i s = .next t →
    exec i { s with out := o } = .next { t with out := o ++ t.out.drop s.out.length }) ∧
  (∀ (s : State) (o : List Digit), o.length = s.out.length → o.head? = s.out.head? →
    (oracleStop { s with out := o }).status = (oracleStop s).status)

/-- The digits stand in OUT in the order of the emits that produced them (R53): what a run has emitted stays, as a
prefix of what it has emitted later. -/
def Obligations.OutputIsAHistory : Prop :=
  ∀ (s : State) (j k : Nat), j ≤ k → (runSteps j s).out <+: (runSteps k s).out

/-- R33 and R38: MODE and PROG are set by Start from its arguments and no step of the run changes them; nor do the
parameters change. -/
def Obligations.ModeAndProgramAreFixedDuringARun : Prop :=
  ∀ (s t : State) (q : StartArgs), start q s = .ok t →
    t.mode = q.mode ∧ t.prog.map Int.ofNat = q.prog ∧ t.prog.length % 2 = 0 ∧ (∀ v ∈ t.prog, v ≤ 7) ∧
    ∀ k, (runSteps k t).mode = q.mode ∧ (runSteps k t).prog = t.prog ∧ (runSteps k t).config = s.config

/-- A jump to its own slot never ends the run (R89; the rule's example is marked derived in the spec): the engine has no
step limit, and every state of the run is Running. -/
def Obligations.SelfJumpNeverEnds : Prop :=
  ∀ (s : State) (x : Nat), s.status = .running → s.mode = .run → s.a ≠ 0 → x ≤ 7 → s.prog.slot? x = some 3 →
    s.prog.slot? (x + 1) = some x → s.pc = x →
    (∀ k, (runSteps k s).status = .running ∧ (runSteps k s).pc = x) ∧ NeverFaults s

/-- The bound of R90 on straight-line runs (its second half; marked derived in the spec): a run in run mode in which no
jump is taken executes at most L/2 instructions, and so is over within L/2 + 1 steps. -/
def Obligations.RunWithoutTakenJumpEnds : Prop :=
  ∀ (s t : State) (q : StartArgs), start q s = .ok t → q.mode = .run →
    (∀ k, k ≤ q.prog.length / 2 → takesJump (runSteps k t) = false) →
    (runSteps (q.prog.length / 2 + 1) t).status.final = true

/-! ### Oracle mode -/

/-- R108, R109 and R111: the oracle stop at a fetched opcode 3, whatever A and the operand are. -/
def Obligations.OracleStopsAtTheFirstJump : Prop :=
  ∀ (s : State) (x : Nat), s.status = .running → s.mode = .oracle → s.prog.slot? s.pc = some 3 →
    s.prog.slot? (s.pc + 1) = some x → x ≤ 7 →
    (∀ d, s.out = [d] → step s = .next { s with status := .oracleDone d }) ∧
    (s.out = [] → step s = .next { s with status := .faulted .oracleNoEmit }) ∧
    (2 ≤ s.out.length → step s = .next { s with status := .faulted .oracleMultiEmit })

/-- R110: a pass that reaches the end of the program faults ORACLE_NO_JUMP, whatever OUT holds. -/
def Obligations.OracleWithoutJumpFaults : Prop :=
  ∀ s : State, s.status = .running → s.mode = .oracle → s.prog.length ≤ s.pc →
    step s = .next { s with status := .faulted .oracleNoJump }

/-- R107: oracle mode differs from run mode in R108 and R110 only: a Start is accepted in both modes, with the same
state but for MODE, or rejected in both with the same LoadError; it sets PC to 0; and every step that neither fetches
opcode 3 nor begins past the end is the same but for MODE. -/
def Obligations.OracleStepsAsTheFullEngine : Prop :=
  (∀ (q : StartArgs) (s t : State), start { q with mode := .run } s = .ok t ↔
    start { q with mode := .oracle } s = .ok { t with mode := .oracle } ∧ t.mode = .run) ∧
  (∀ (q : StartArgs) (s : State) (e : LoadError), start { q with mode := .run } s = .error e ↔
    start { q with mode := .oracle } s = .error e) ∧
  (∀ (q : StartArgs) (s t : State), start q s = .ok t → t.pc = 0) ∧
  (∀ s t : State, s.mode = .run → s.pc < s.prog.length → (∀ x, fetch s ≠ .ok (.jumpIfANonzero x)) →
    (step s = .next t ↔ step { s with mode := .oracle } = .next { t with mode := .oracle } ∧ t.mode = .run))

/-- The oracle is a prefix of the full run (R106, R107): while an oracle pass is Running, the run-mode engine started with
the same arguments is in the same state but for MODE; and where the oracle returns d, the run has emitted exactly d. -/
def Obligations.OraclePassIsAPrefixOfTheRun : Prop :=
  ∀ (q : StartArgs) (s o r : State), start { q with mode := .oracle } s = .ok o →
    start { q with mode := .run } s = .ok r →
    (∀ k, (runSteps k o).status = .running → runSteps k r = { runSteps k o with mode := .run }) ∧
    (∀ k d, (runSteps k o).status = .oracleDone d → ∃ j, j < k ∧
      runSteps j r = { runSteps k o with mode := .run, status := .running } ∧ (runSteps j r).out = [d])

/-- Every oracle pass ends, within L/2 + 1 steps, and its PC is always even (R112; marked derived in the spec). -/
def Obligations.OraclePassAlwaysEnds : Prop :=
  ∀ (q : StartArgs) (s t : State), start q s = .ok t → q.mode = .oracle →
    (runSteps (q.prog.length / 2 + 1) t).status.final = true ∧ ∀ k, (runSteps k t).pc % 2 = 0

/-! ### Invariants -/

/-- Every step keeps the invariant, from every state that has it. -/
def Obligations.StepKeepsTheInvariant : Prop :=
  ∀ s t : State, Inv s → step s = .next t → Inv t

/-- Every accepted Start makes the invariant hold, whatever state it finds, given legal parameters. -/
def Obligations.StartMakesTheInvariant : Prop :=
  ∀ (q : StartArgs) (s t : State), s.config.wf = true → start q s = .ok t → Inv t

/-- The invariant holds at power-on for all legal parameters, and at `State.reset`. It rests on the values of log entry 2
(the model's choice): registers at 0, no output, no program. -/
def Obligations.PowerOnHasTheInvariant : Prop :=
  (∀ cfg : Config, cfg.wf = true → Inv (State.powerOn cfg)) ∧ Inv State.reset

/-- In every state that Starts and steps reach: no slot outside 0..7 is ever fetched, so BAD_SLOT_VALUE is never raised
(R70, R117), PC never exceeds max(L, 7) (R31), and a Faulted state shows its cause (R119). -/
def Obligations.ReachableStatesAreSound : Prop :=
  ∀ (cfg : Config) (s : State), cfg.wf = true → Reachable cfg s →
    s.status ≠ .faulted .badSlotValue ∧ fetch s ≠ .error .badSlotValue ∧ s.pc ≤ max s.prog.length 7 ∧
    (∀ code, s.status = .faulted code → causeHolds code s) ∧ s.config = cfg

/-- No instruction widens a value (R23; marked derived in the spec): where A, B and C have width at most w, w at least 4,
they have it in every later state of the run. -/
def Obligations.RegisterWidthNeverGrows : Prop :=
  ∀ (w : Nat) (s : State), 4 ≤ w → (∀ r, withinWidth w (s.readReg r)) →
    ∀ k r, withinWidth w ((runSteps k s).readReg r)

/-- Non-negative registers stay non-negative through a run (R24; marked derived in the spec), and then NEG_SHIFT never
occurs. -/
def Obligations.NonNegativeRegistersStaySo : Prop :=
  ∀ s : State, s.status = .running → (∀ r, 0 ≤ s.readReg r) →
    ∀ k, (∀ r, 0 ≤ (runSteps k s).readReg r) ∧ (runSteps k s).status ≠ .faulted .negShift

/-- Once a run is accepted, `REG_WIDTH` and `PROG_MAX` have no part in it (R11; marked derived in the spec): the same
state with other values of the two takes the same steps. -/
def Obligations.WidthAndStoreSizeMatterAtStartOnly : Prop :=
  ∀ (s : State) (w : Option Nat) (m k : Nat),
    runSteps k { s with config := { s.config with regWidth := w, progMax := m } } =
      { runSteps k s with config := { s.config with regWidth := w, progMax := m } }

/-! ### Start, power-on and the host's view -/

/-- R136 and R137: what an accepted Start sets; a rejected one gives no state. -/
def Obligations.StartSetsTheWholeState : Prop :=
  ∀ (q : StartArgs) (s : State),
    (s.status = .running → start q s = .error .busy) ∧
    (∀ e, s.status ≠ .running → validate s.config q = some e → start q s = .error e) ∧
    (s.status ≠ .running → validate s.config q = none → ∃ t, start q s = .ok t ∧
      t.a = q.a0 ∧ t.b = q.b0 ∧ t.c = q.c0 ∧ t.pc = 0 ∧ t.out = [] ∧ t.mode = q.mode ∧ t.status = .running ∧
      t.prog.map Int.ofNat = q.prog ∧ t.prog.length = q.prog.length ∧ t.config = s.config ∧
      t.statusw = if q.mode = .oracle then 0x0041 else 0x0001)

/-- R140: the LoadErrors, in order; a Start is accepted exactly when none applies. -/
def Obligations.StartRejectsInOrder : Prop :=
  ∀ (q : StartArgs) (s : State),
    (s.status = .running → start q s = .error .busy) ∧
    (s.status ≠ .running →
      (q.prog.length % 2 = 1 → start q s = .error .oddLength) ∧
      (q.prog.length % 2 = 0 →
        (s.config.progMax < q.prog.length → start q s = .error .progTooLong) ∧
        (q.prog.length ≤ s.config.progMax →
          ((∃ v ∈ q.prog, v < 0 ∨ 7 < v) → start q s = .error .digitRange) ∧
          ((∀ v ∈ q.prog, 0 ≤ v ∧ v ≤ 7) →
            ((∃ w, s.config.regWidth = some w ∧
                ∃ v ∈ [q.a0, q.b0, q.c0], v < -(2 ^ (w - 1) : Int) ∨ (2 ^ (w - 1) : Int) - 1 < v) →
              start q s = .error .regRange) ∧
            ((∀ w, s.config.regWidth = some w →
                ∀ v ∈ [q.a0, q.b0, q.c0], -(2 ^ (w - 1) : Int) ≤ v ∧ v ≤ (2 ^ (w - 1) : Int) - 1) →
              ∃ t, start q s = .ok t)))))

/-- R135: each Start begins from a fresh state. What a run does depends on the arguments and the parameters alone, and
nothing of an earlier run survives. -/
def Obligations.StartForgetsEarlierRuns : Prop :=
  ∀ (q : StartArgs) (s s' : State), s.status ≠ .running → s'.status ≠ .running → s.config = s'.config →
    start q s = start q s' ∧
    ∀ t t', start q s = .ok t → start q s' = .ok t' → ∀ k, runSteps k t = runSteps k t'

/-- R35: the fields of STATUSW, for every state. -/
def Obligations.StatusWordFields : Prop :=
  ∀ s : State,
    s.statusw.extractLsb' 0 3 =
      (match s.status with
        | .idle => 0#3 | .running => 1#3 | .halted => 2#3 | .oracleDone _ => 3#3 | .faulted _ => 4#3) ∧
    s.statusw.extractLsb' 3 3 =
      (match s.status with
        | .oracleDone d => BitVec.ofNat 3 d.val
        | .idle | .running | .halted | .faulted _ => 0#3) ∧
    s.statusw.extractLsb' 6 1 = (if s.status ≠ .idle ∧ s.mode = .oracle then 1#1 else 0#1) ∧
    s.statusw.extractLsb' 7 1 = 0#1 ∧
    s.statusw.extractLsb' 8 4 =
      (match s.status with
        | .faulted code => code.code
        | .idle | .running | .halted | .oracleDone _ => 0#4) ∧
    s.statusw.extractLsb' 12 4 = 0#4

/-- What the host may read (R41, with R43, R115 and R123): OUT as a whole once Halted, DIGIT once OracleDone, the
registers and PC once STATUS is final, and no result of a faulted run. Log entry 7. -/
def Obligations.HostReadsResultsOfEndedRunsOnly : Prop :=
  ∀ s : State,
    (∀ o, s.hostOut = some o ↔ s.status = .halted ∧ o = s.out) ∧
    (∀ d, s.hostDigit = some d ↔ s.status = .oracleDone d) ∧
    (s.status.final = true → (∀ r, s.hostReg r = some (s.readReg r)) ∧ s.hostPc = some s.pc) ∧
    (s.status.final = false → (∀ r, s.hostReg r = none) ∧ s.hostPc = none ∧ s.hostOut = none ∧ s.hostDigit = none) ∧
    (∀ code, s.status = .faulted code → s.hostOut = none ∧ s.hostDigit = none) ∧
    (∀ d, s.status = .oracleDone d → s.statusw.extractLsb' 3 3 = BitVec.ofNat 3 d.val)

/-- R134: at power-on STATUS is Idle, STATUSW reads 0x0000, the engine takes no step, and the host reads nothing. No
clause rests on the register values of log entry 2. -/
def Obligations.PowerOnIsIdle : Prop :=
  ∀ cfg : Config,
    (State.powerOn cfg).status = .idle ∧ (State.powerOn cfg).statusw = 0x0000 ∧
    (∀ t, step (State.powerOn cfg) ≠ .next t) ∧
    (State.powerOn cfg).hostOut = none ∧ (State.powerOn cfg).hostDigit = none ∧
    (∀ r, (State.powerOn cfg).hostReg r = none) ∧ (State.powerOn cfg).hostPc = none
end

