-- ==== Sys2Proof/Laws/Decode.lean ====
section
/-! SUPPORT. What the operand decoders answer, said once, and that the packed word holds its two slots. -/

namespace Sys2Proof

/-- A decoded combo operand is well-formed and its field is the slot decoded. -/
theorem decodeCombo_ok {x : Nat} {k : Combo} (h : decodeCombo x = .ok k) : k.wf = true ∧ k.field = x ∧ x ≤ 7 := by
  unfold decodeCombo at h
  split at h <;> simp_all <;> subst h <;> simp [Combo.wf, Combo.field]

/-- Every field of 0..7 is a combo operand; every other value is rejected. -/
theorem decodeCombo_total (x : Nat) :
    (x ≤ 7 ∧ ∃ k, decodeCombo x = .ok k) ∨ (7 < x ∧ decodeCombo x = .error .badSlotValue) := by
  unfold decodeCombo
  split <;> simp_all
  omega

theorem decodeCombo_field {k : Combo} (h : k.wf = true) : decodeCombo k.field = .ok k := by
  cases k with
  | lit n =>
    have hn : n ≤ 3 := by simpa [Combo.wf] using h
    interval_cases n <;> rfl
  | reg r => cases r <;> rfl
  | reserved => rfl

theorem decodeLiteral_ok_iff {x y : Nat} : decodeLiteral x = .ok y ↔ x ≤ 7 ∧ y = x := by
  unfold decodeLiteral
  split <;> simp_all [eq_comm]

theorem decodeLiteral_of_gt {x : Nat} (h : 7 < x) : decodeLiteral x = .error .badSlotValue := by
  unfold decodeLiteral; split <;> simp_all; omega

/-- A pair that decodes to nothing has a slot above 7. -/
theorem decode_error {o x : Nat} {e : DecodeReject} (h : decode o x = .error e) : 7 < o ∨ 7 < x := by
  by_contra hc
  obtain ⟨ho, hx⟩ : o ≤ 7 ∧ x ≤ 7 := by omega
  obtain ⟨k, hk⟩ : ∃ k, decodeCombo x = .ok k := by
    obtain ⟨-, h⟩ | ⟨h, -⟩ := decodeCombo_total x
    · exact h
    · omega
  have hl : decodeLiteral x = .ok x := decodeLiteral_ok_iff.2 ⟨hx, rfl⟩
  interval_cases o <;> simp [decode, hk, hl, Except.map] at h

/-- The opcode and the operand of a well-formed instruction are slots. -/
theorem opcode_le (i : Instr) : i.opcode ≤ 7 := by cases i <;> simp [Instr.opcode]

theorem Combo.field_le {k : Combo} (h : k.wf = true) : k.field ≤ 7 := (decodeCombo_ok (decodeCombo_field h)).2.2

theorem operand_le {i : Instr} (h : i.wf = true) : i.operand ≤ 7 := by
  cases i <;> first | exact Combo.field_le h | exact of_decide_eq_true h

/-- A packed word gives back its two slots (R61). -/
theorem packed_div_mod {o x n : Nat} (ho : o ≤ 7) (hx : x ≤ 7) (hn : 6 ≤ n) :
    (o * 8 + x) % 2 ^ n / 8 = o ∧ (o * 8 + x) % 2 ^ n % 8 = x := by
  have h64 : 2 ^ 6 ≤ 2 ^ n := Nat.pow_le_pow_right (by omega) hn
  rw [Nat.mod_eq_of_lt (by omega)]
  omega

end Sys2Proof
end

