-- ==== Sys2Proof/Laws/State.lean ====
section
/-! SUPPORT. One lemma per field of State per update, so that no proof unfolds a record update, and the read-after-write
laws of the register file. -/

namespace Sys2Proof.Machine


@[simp] theorem State.setPc_a (s : State) (t : Nat) : (s.setPc t).a = s.a := rfl
@[simp] theorem State.setPc_b (s : State) (t : Nat) : (s.setPc t).b = s.b := rfl
@[simp] theorem State.setPc_c (s : State) (t : Nat) : (s.setPc t).c = s.c := rfl
@[simp] theorem State.setPc_pc (s : State) (t : Nat) : (s.setPc t).pc = t := rfl
@[simp] theorem State.setPc_out (s : State) (t : Nat) : (s.setPc t).out = s.out := rfl
@[simp] theorem State.setPc_mode (s : State) (t : Nat) : (s.setPc t).mode = s.mode := rfl
@[simp] theorem State.setPc_status (s : State) (t : Nat) : (s.setPc t).status = s.status := rfl
@[simp] theorem State.setPc_prog (s : State) (t : Nat) : (s.setPc t).prog = s.prog := rfl
@[simp] theorem State.setPc_config (s : State) (t : Nat) : (s.setPc t).config = s.config := rfl

@[simp] theorem State.advance_a (s : State) : (s.advance).a = s.a := rfl
@[simp] theorem State.advance_b (s : State) : (s.advance).b = s.b := rfl
@[simp] theorem State.advance_c (s : State) : (s.advance).c = s.c := rfl
@[simp] theorem State.advance_pc (s : State) : (s.advance).pc = s.pc + 2 := rfl
@[simp] theorem State.advance_out (s : State) : (s.advance).out = s.out := rfl
@[simp] theorem State.advance_mode (s : State) : (s.advance).mode = s.mode := rfl
@[simp] theorem State.advance_status (s : State) : (s.advance).status = s.status := rfl
@[simp] theorem State.advance_prog (s : State) : (s.advance).prog = s.prog := rfl
@[simp] theorem State.advance_config (s : State) : (s.advance).config = s.config := rfl

@[simp] theorem State.appendOut_a (s : State) (d : Digit) : (s.appendOut d).a = s.a := rfl
@[simp] theorem State.appendOut_b (s : State) (d : Digit) : (s.appendOut d).b = s.b := rfl
@[simp] theorem State.appendOut_c (s : State) (d : Digit) : (s.appendOut d).c = s.c := rfl
@[simp] theorem State.appendOut_pc (s : State) (d : Digit) : (s.appendOut d).pc = s.pc := rfl
@[simp] theorem State.appendOut_out (s : State) (d : Digit) : (s.appendOut d).out = s.out ++ [d] := rfl
@[simp] theorem State.appendOut_mode (s : State) (d : Digit) : (s.appendOut d).mode = s.mode := rfl
@[simp] theorem State.appendOut_status (s : State) (d : Digit) : (s.appendOut d).status = s.status := rfl
@[simp] theorem State.appendOut_prog (s : State) (d : Digit) : (s.appendOut d).prog = s.prog := rfl
@[simp] theorem State.appendOut_config (s : State) (d : Digit) : (s.appendOut d).config = s.config := rfl

@[simp] theorem State.raise_a (s : State) (code : FaultCode) : (s.raise code).a = s.a := rfl
@[simp] theorem State.raise_b (s : State) (code : FaultCode) : (s.raise code).b = s.b := rfl
@[simp] theorem State.raise_c (s : State) (code : FaultCode) : (s.raise code).c = s.c := rfl
@[simp] theorem State.raise_pc (s : State) (code : FaultCode) : (s.raise code).pc = s.pc := rfl
@[simp] theorem State.raise_out (s : State) (code : FaultCode) : (s.raise code).out = s.out := rfl
@[simp] theorem State.raise_mode (s : State) (code : FaultCode) : (s.raise code).mode = s.mode := rfl
@[simp] theorem State.raise_status (s : State) (code : FaultCode) : (s.raise code).status = .faulted code := rfl
@[simp] theorem State.raise_prog (s : State) (code : FaultCode) : (s.raise code).prog = s.prog := rfl
@[simp] theorem State.raise_config (s : State) (code : FaultCode) : (s.raise code).config = s.config := rfl

@[simp] theorem State.halt_a (s : State) : (s.halt).a = s.a := rfl
@[simp] theorem State.halt_b (s : State) : (s.halt).b = s.b := rfl
@[simp] theorem State.halt_c (s : State) : (s.halt).c = s.c := rfl
@[simp] theorem State.halt_pc (s : State) : (s.halt).pc = s.pc := rfl
@[simp] theorem State.halt_out (s : State) : (s.halt).out = s.out := rfl
@[simp] theorem State.halt_mode (s : State) : (s.halt).mode = s.mode := rfl
@[simp] theorem State.halt_status (s : State) : (s.halt).status = .halted := rfl
@[simp] theorem State.halt_prog (s : State) : (s.halt).prog = s.prog := rfl
@[simp] theorem State.halt_config (s : State) : (s.halt).config = s.config := rfl

@[simp] theorem State.finishOracle_a (s : State) (d : Digit) : (s.finishOracle d).a = s.a := rfl
@[simp] theorem State.finishOracle_b (s : State) (d : Digit) : (s.finishOracle d).b = s.b := rfl
@[simp] theorem State.finishOracle_c (s : State) (d : Digit) : (s.finishOracle d).c = s.c := rfl
@[simp] theorem State.finishOracle_pc (s : State) (d : Digit) : (s.finishOracle d).pc = s.pc := rfl
@[simp] theorem State.finishOracle_out (s : State) (d : Digit) : (s.finishOracle d).out = s.out := rfl
@[simp] theorem State.finishOracle_mode (s : State) (d : Digit) : (s.finishOracle d).mode = s.mode := rfl
@[simp] theorem State.finishOracle_status (s : State) (d : Digit) : (s.finishOracle d).status = .oracleDone d := rfl
@[simp] theorem State.finishOracle_prog (s : State) (d : Digit) : (s.finishOracle d).prog = s.prog := rfl
@[simp] theorem State.finishOracle_config (s : State) (d : Digit) : (s.finishOracle d).config = s.config := rfl

@[simp] theorem State.writeReg_A_a (s : State) (v : Int) : (s.writeReg .A v).a = v := rfl
@[simp] theorem State.writeReg_A_b (s : State) (v : Int) : (s.writeReg .A v).b = s.b := rfl
@[simp] theorem State.writeReg_A_c (s : State) (v : Int) : (s.writeReg .A v).c = s.c := rfl
@[simp] theorem State.writeReg_B_a (s : State) (v : Int) : (s.writeReg .B v).a = s.a := rfl
@[simp] theorem State.writeReg_B_b (s : State) (v : Int) : (s.writeReg .B v).b = v := rfl
@[simp] theorem State.writeReg_B_c (s : State) (v : Int) : (s.writeReg .B v).c = s.c := rfl
@[simp] theorem State.writeReg_C_a (s : State) (v : Int) : (s.writeReg .C v).a = s.a := rfl
@[simp] theorem State.writeReg_C_b (s : State) (v : Int) : (s.writeReg .C v).b = s.b := rfl
@[simp] theorem State.writeReg_C_c (s : State) (v : Int) : (s.writeReg .C v).c = v := rfl
@[simp] theorem State.writeReg_pc (s : State) (r : Reg) (v : Int) : (s.writeReg r v).pc = s.pc := by cases r <;> rfl
@[simp] theorem State.writeReg_out (s : State) (r : Reg) (v : Int) : (s.writeReg r v).out = s.out := by cases r <;> rfl
@[simp] theorem State.writeReg_mode (s : State) (r : Reg) (v : Int) : (s.writeReg r v).mode = s.mode := by cases r <;> rfl
@[simp] theorem State.writeReg_status (s : State) (r : Reg) (v : Int) : (s.writeReg r v).status = s.status := by cases r <;> rfl
@[simp] theorem State.writeReg_prog (s : State) (r : Reg) (v : Int) : (s.writeReg r v).prog = s.prog := by cases r <;> rfl
@[simp] theorem State.writeReg_config (s : State) (r : Reg) (v : Int) : (s.writeReg r v).config = s.config := by cases r <;> rfl

@[simp] theorem State.readReg_A (s : State) : s.readReg .A = s.a := rfl
@[simp] theorem State.readReg_B (s : State) : s.readReg .B = s.b := rfl
@[simp] theorem State.readReg_C (s : State) : s.readReg .C = s.c := rfl

/-- Read after write: the register written reads as the value, the others as before. -/
theorem State.readReg_writeReg (s : State) (r q : Reg) (v : Int) :
    (s.writeReg r v).readReg q = if q = r then v else s.readReg q := by
  cases r <;> cases q <;> rfl

@[simp] theorem State.readReg_setPc (s : State) (t : Nat) (r : Reg) : (s.setPc t).readReg r = s.readReg r := by cases r <;> rfl
@[simp] theorem State.readReg_advance (s : State) (r : Reg) : (s.advance).readReg r = s.readReg r := by cases r <;> rfl
@[simp] theorem State.readReg_appendOut (s : State) (d : Digit) (r : Reg) : (s.appendOut d).readReg r = s.readReg r := by cases r <;> rfl
@[simp] theorem State.readReg_raise (s : State) (code : FaultCode) (r : Reg) : (s.raise code).readReg r = s.readReg r := by cases r <;> rfl
@[simp] theorem State.readReg_halt (s : State) (r : Reg) : (s.halt).readReg r = s.readReg r := by cases r <;> rfl
@[simp] theorem State.readReg_finishOracle (s : State) (d : Digit) (r : Reg) : (s.finishOracle d).readReg r = s.readReg r := by cases r <;> rfl

/-- A write of the value a register already holds changes nothing. -/
theorem State.writeReg_readReg (s : State) (r : Reg) : s.writeReg r (s.readReg r) = s := by
  cases r <;> rfl

/-- Two states with equal fields are equal. -/
@[ext] theorem State.ext_fields {s t : State} (ha : s.a = t.a) (hb : s.b = t.b) (hc : s.c = t.c) (hpc : s.pc = t.pc)
    (hout : s.out = t.out) (hmode : s.mode = t.mode) (hstatus : s.status = t.status) (hprog : s.prog = t.prog)
    (hconfig : s.config = t.config) : s = t := by
  cases s; cases t; simp_all

end Sys2Proof.Machine
end

