-- ==== Sys2Proof/Laws/Ops.lean ====
section
/-! SUPPORT. What the integer primitives and the shared operations can do, said once each. -/

namespace Sys2Proof.Machine

/-! ### Integer primitives -/

/-- The shift as a floor division by a power of two. -/
theorem sar_eq_div (v n : Int) : sar v n = v / ((2 ^ n.toNat : Nat) : Int) := Int.shiftRight_eq_div_pow v n.toNat

theorem sar_nonneg {v : Int} (n : Int) (h : 0 ≤ v) : 0 ≤ sar v n := by
  rw [sar_eq_div]; exact Int.ediv_nonneg h (by positivity)

/-- The shift of a value lies between the value and 0, or between the value and -1. -/
theorem sar_between (v n : Int) : (0 ≤ v → 0 ≤ sar v n ∧ sar v n ≤ v) ∧ (v < 0 → v ≤ sar v n ∧ sar v n ≤ -1) := by
  have hp : (0 : Int) < ((2 ^ n.toNat : Nat) : Int) := by positivity
  rw [sar_eq_div]
  refine ⟨fun h => ⟨Int.ediv_nonneg h hp.le, Int.ediv_le_self _ h⟩, fun h => ⟨?_, ?_⟩⟩
  · rw [Int.le_ediv_iff_mul_le hp]; nlinarith
  · have := Int.ediv_neg_of_neg_of_pos h hp; omega

/-- `mod8` as a remainder. -/
theorem mod8_val (v : Int) : ((mod8 v).val : Int) = v % 8 := by simp only [mod8]; omega

theorem xorInt_ofNat (n m : Nat) : xorInt n m = ((n ^^^ m : Nat) : Int) := rfl

theorem xorInt_negSucc_ofNat (n m : Nat) : xorInt (Int.negSucc n) m = Int.negSucc (n ^^^ m) := rfl

/-- The exclusive or is negative exactly when one operand is. -/
theorem xorInt_neg_iff (v w : Int) : xorInt v w < 0 ↔ ((v < 0 ∧ 0 ≤ w) ∨ (0 ≤ v ∧ w < 0)) := by
  cases v <;> cases w <;> simp only [xorInt, Int.ofNat_eq_natCast] <;> omega

/-! ### Operands -/

/-- A combo operand has a value unless it is the reserved one, and that value is a literal's or a register's. -/
theorem comboValue_ok {s : State} {k : Combo} {v : Int} (h : comboValue s k = .ok v) :
    (∃ n, k = .lit n ∧ v = (n : Int)) ∨ ∃ r, k = .reg r ∧ v = s.readReg r := by
  cases k with
  | lit n => simp only [comboValue, Except.ok.injEq] at h; exact .inl ⟨n, rfl, h.symm⟩
  | reg r => simp only [comboValue, Except.ok.injEq] at h; exact .inr ⟨r, rfl, h.symm⟩
  | reserved => simp [comboValue] at h

theorem comboValue_error {s : State} {k : Combo} {code : FaultCode} (h : comboValue s k = .error code) :
    k = .reserved ∧ code = .reservedCombo := by
  cases k <;> simp_all [comboValue]

/-- A shift amount is a combo operand's value that is not negative. -/
theorem shiftAmount_ok_iff {s : State} {k : Combo} {n : Int} :
    shiftAmount s k = .ok n ↔ comboValue s k = .ok n ∧ 0 ≤ n := by
  unfold shiftAmount
  cases h : comboValue s k with
  | error code => simp
  | ok v =>
    by_cases hv : v < 0
    · simp only [hv, if_true, reduceCtorEq, Except.ok.injEq, false_iff]; omega
    · simp only [hv, if_false, Except.ok.injEq]; omega

theorem shiftAmount_error {s : State} {k : Combo} {code : FaultCode} (h : shiftAmount s k = .error code) :
    (k = .reserved ∧ code = .reservedCombo) ∨ (code = .negShift ∧ ∃ r, k = .reg r ∧ s.readReg r < 0) := by
  unfold shiftAmount at h
  cases hc : comboValue s k with
  | error c => rw [hc] at h; obtain ⟨hk, rfl⟩ := comboValue_error hc; simp_all
  | ok v =>
    rw [hc] at h
    by_cases hv : v < 0
    · simp only [hv, if_true, Except.error.injEq] at h
      obtain ⟨n, rfl, rfl⟩ | ⟨r, rfl, rfl⟩ := comboValue_ok hc
      · omega
      · exact .inr ⟨h.symm, r, rfl, hv⟩
    · simp [hv] at h

/-! ### The outcome of a meaning, and OUT -/

/-- A meaning that can fault always answers a next state: its own, or the state with the fault raised. -/
theorem conclude_next_iff {s t : State} {e : Except FaultCode State} :
    s.conclude e = .next t ↔ e = .ok t ∨ ∃ code, e = .error code ∧ t = s.raise code := by
  cases e with
  | ok u => simp [State.conclude]
  | error code => simp [State.conclude, eq_comm]

/-- OUT is full exactly when it holds a finite capacity of digits. -/
theorem outFull_iff {s : State} : s.outFull = true ↔ s.config.outCapacity = some s.out.length := by
  unfold State.outFull
  cases h : s.config.outCapacity with
  | none => simp
  | some n => simp [eq_comm]

end Sys2Proof.Machine
end

