-- ==== Sys2Proof/Laws/Exec.lean ====
section
/-! SUPPORT. What each meaning, and `exec`, can answer: one inversion lemma each, so that no proof over steps unfolds the
dispatch. -/

namespace Sys2Proof.Machine

/-- Everything a shift into `r` can do. -/
theorem shiftInto_ok_iff {r : Reg} {k : Combo} {s t : State} :
    shiftInto r k s = .ok t ↔ ∃ n, comboValue s k = .ok n ∧ 0 ≤ n ∧ t = (s.writeReg r (sar s.a n)).advance := by
  unfold shiftInto
  cases h : shiftAmount s k with
  | error code =>
    simp only [reduceCtorEq, false_iff, not_exists]
    rintro n ⟨hn, h0, -⟩
    rw [shiftAmount_ok_iff.2 ⟨hn, h0⟩] at h; cases h
  | ok n =>
    obtain ⟨hn, h0⟩ := shiftAmount_ok_iff.1 h
    simp only [Except.ok.injEq, hn]
    constructor
    · rintro rfl; exact ⟨n, rfl, h0, rfl⟩
    · rintro ⟨m, rfl, -, rfl⟩; rfl

theorem shiftInto_error {r : Reg} {k : Combo} {s : State} {code : FaultCode} (h : shiftInto r k s = .error code) :
    (k = .reserved ∧ code = .reservedCombo) ∨ (code = .negShift ∧ ∃ r', k = .reg r' ∧ s.readReg r' < 0) := by
  unfold shiftInto at h
  cases hs : shiftAmount s k with
  | error c => rw [hs] at h; cases h; exact shiftAmount_error hs
  | ok n => rw [hs] at h; cases h

/-- The three ways an instruction can fault (R117): with the state otherwise as it was. -/
inductive ExecFault (i : Instr) (s : State) : FaultCode → Prop where
  | reserved (h : i ∈ [Instr.shiftA .reserved, .modB .reserved, .emit .reserved, .shiftB .reserved, .shiftC .reserved]) :
      ExecFault i s .reservedCombo
  | negative (r : Reg) (hr : s.readReg r < 0) (h : i ∈ [Instr.shiftA (.reg r), .shiftB (.reg r), .shiftC (.reg r)]) :
      ExecFault i s .negShift
  | full (k : Combo) (v : Int) (hi : i = .emit k) (hv : comboValue s k = .ok v) (hf : s.outFull = true) :
      ExecFault i s .outputOverflow

/-- The own effect of each instruction, where it does not fault. -/
inductive ExecEffect (s : State) : Instr → State → Prop where
  | shiftA (k : Combo) (n : Int) (hn : comboValue s k = .ok n) (h0 : 0 ≤ n) :
      ExecEffect s (.shiftA k) (s.writeReg .A (sar s.a n)).advance
  | xorBLiteral (x : Nat) : ExecEffect s (.xorBLiteral x) (s.writeReg .B (xorInt s.b (x : Int))).advance
  | modB (k : Combo) (v : Int) (hv : comboValue s k = .ok v) :
      ExecEffect s (.modB k) (s.writeReg .B ((mod8 v).val : Int)).advance
  | jumpTaken (x : Nat) (ha : s.a ≠ 0) : ExecEffect s (.jumpIfANonzero x) (s.setPc x)
  | jumpNotTaken (x : Nat) (ha : s.a = 0) : ExecEffect s (.jumpIfANonzero x) s.advance
  | xorBC (x : Nat) : ExecEffect s (.xorBC x) (s.writeReg .B (xorInt s.b s.c)).advance
  | emit (k : Combo) (v : Int) (hv : comboValue s k = .ok v) (hf : s.outFull = false) :
      ExecEffect s (.emit k) (s.appendOut (mod8 v)).advance
  | shiftB (k : Combo) (n : Int) (hn : comboValue s k = .ok n) (h0 : 0 ≤ n) :
      ExecEffect s (.shiftB k) (s.writeReg .B (sar s.a n)).advance
  | shiftC (k : Combo) (n : Int) (hn : comboValue s k = .ok n) (h0 : 0 ≤ n) :
      ExecEffect s (.shiftC k) (s.writeReg .C (sar s.a n)).advance

/-- Everything an instruction can do: its own effect, or one of its faults raised. -/
theorem exec_cases {i : Instr} {s t : State} (h : exec i s = .next t) :
    ExecEffect s i t ∨ ∃ code, ExecFault i s code ∧ t = s.raise code := by
  cases i with
  | shiftA k =>
    obtain ho | ⟨code, he, rfl⟩ := conclude_next_iff.1 h
    · obtain ⟨n, hn, h0, rfl⟩ := shiftInto_ok_iff.1 ho; exact .inl (.shiftA k n hn h0)
    · obtain ⟨rfl, rfl⟩ | ⟨rfl, r, rfl, hr⟩ := shiftInto_error he
      · exact .inr ⟨_, .reserved (by simp), rfl⟩
      · exact .inr ⟨_, .negative r hr (by simp), rfl⟩
  | xorBLiteral x => cases h; exact .inl (.xorBLiteral x)
  | modB k =>
    obtain ho | ⟨code, he, rfl⟩ := conclude_next_iff.1 h
    · cases hk : comboValue s k with
      | error code => rw [hk] at ho; cases ho
      | ok v => rw [hk] at ho; cases ho; exact .inl (.modB k v hk)
    · cases hk : comboValue s k with
      | error c =>
        rw [hk] at he; cases he
        obtain ⟨rfl, rfl⟩ := comboValue_error hk
        exact .inr ⟨_, .reserved (by simp), rfl⟩
      | ok v => rw [hk] at he; cases he
  | jumpIfANonzero x =>
    cases h
    by_cases ha : s.a = 0
    · rw [if_neg (not_not.2 ha)]; exact .inl (.jumpNotTaken x ha)
    · rw [if_pos ha]; exact .inl (.jumpTaken x ha)
  | xorBC x => cases h; exact .inl (.xorBC x)
  | emit k =>
    cases hk : comboValue s k with
    | error c =>
      obtain ⟨rfl, rfl⟩ := comboValue_error hk
      simp only [exec, execEmit, hk, State.conclude] at h; cases h
      exact .inr ⟨_, .reserved (by simp), rfl⟩
    | ok v =>
      simp only [exec, execEmit, hk] at h
      by_cases hf : s.outFull = true
      · rw [if_pos hf] at h; cases h; exact .inr ⟨_, .full k v rfl hk hf, rfl⟩
      · rw [if_neg hf] at h; cases h; exact .inl (.emit k v hk (by simpa using hf))
  | shiftB k =>
    obtain ho | ⟨code, he, rfl⟩ := conclude_next_iff.1 h
    · obtain ⟨n, hn, h0, rfl⟩ := shiftInto_ok_iff.1 ho; exact .inl (.shiftB k n hn h0)
    · obtain ⟨rfl, rfl⟩ | ⟨rfl, r, rfl, hr⟩ := shiftInto_error he
      · exact .inr ⟨_, .reserved (by simp), rfl⟩
      · exact .inr ⟨_, .negative r hr (by simp), rfl⟩
  | shiftC k =>
    obtain ho | ⟨code, he, rfl⟩ := conclude_next_iff.1 h
    · obtain ⟨n, hn, h0, rfl⟩ := shiftInto_ok_iff.1 ho; exact .inl (.shiftC k n hn h0)
    · obtain ⟨rfl, rfl⟩ | ⟨rfl, r, rfl, hr⟩ := shiftInto_error he
      · exact .inr ⟨_, .reserved (by simp), rfl⟩
      · exact .inr ⟨_, .negative r hr (by simp), rfl⟩

/-- No instruction changes MODE, PROG or the parameters. -/
theorem exec_keeps_setup {i : Instr} {s t : State} (h : exec i s = .next t) :
    t.mode = s.mode ∧ t.prog = s.prog ∧ t.config = s.config := by
  obtain he | ⟨code, -, rfl⟩ := exec_cases h
  · cases he <;> simp
  · simp

/-- An instruction's own effect keeps STATUS. -/
theorem ExecEffect.keeps_status {i : Instr} {s t : State} (h : ExecEffect s i t) : t.status = s.status := by
  cases h <;> simp

end Sys2Proof.Machine
end

