-- ==== Sys2Proof/Laws/Cycle.lean ====
section
/-! SUPPORT. What the fetch, the ends of a pass and a step can do, said once each, and the one induction over runs. -/

namespace Sys2Proof.Machine

/-! ### Fetch -/

/-- A slot of the program store reads as something exactly below its length. -/
theorem slot?_eq_some {m : Memory} {i v : Nat} (h : m.slot? i = some v) : i < m.length := by
  unfold Memory.slot? at h
  exact (List.getElem?_eq_some_iff.1 h).1

theorem slot?_of_lt {m : Memory} {i : Nat} (h : i < m.length) : ∃ v, m.slot? i = some v :=
  ⟨m[i], List.getElem?_eq_getElem h⟩

/-- Every slot of a store in its one form is at most 7 (R38). -/
theorem slot?_le_of_wf {m : Memory} {i v : Nat} (hw : m.wf = true) (h : m.slot? i = some v) : v ≤ 7 := by
  simp only [Memory.wf, Bool.and_eq_true, List.all_eq_true, decide_eq_true_eq] at hw
  exact hw.2 v (List.mem_of_getElem? h)

/-- A fetched instruction is the decoding of the pair at PC. -/
theorem fetch_ok_iff {s : State} {i : Instr} :
    fetch s = .ok i ↔ ∃ o x, s.prog.slot? s.pc = some o ∧ s.prog.slot? (s.pc + 1) = some x ∧ decode o x = .ok i := by
  unfold fetch
  cases ho : s.prog.slot? s.pc with
  | none => simp
  | some o =>
    cases hx : s.prog.slot? (s.pc + 1) with
    | none => simp
    | some x =>
      cases hd : decode o x with
      | ok j => simp [hd]
      | error e => cases e; simp [hd]

/-- A fetch fails because the pair is not all there, or because it decodes to nothing. -/
theorem fetch_error {s : State} {code : FaultCode} (h : fetch s = .error code) :
    (code = .operandBeyondEnd ∧ s.prog.length ≤ s.pc + 1) ∨
    (code = .badSlotValue ∧ ∃ o x, s.prog.slot? s.pc = some o ∧ s.prog.slot? (s.pc + 1) = some x ∧
      decode o x = .error .badSlotValue) := by
  by_cases hlt : s.pc + 1 < s.prog.length
  · obtain ⟨o, ho⟩ := slot?_of_lt (m := s.prog) (i := s.pc) (by omega)
    obtain ⟨x, hx⟩ := slot?_of_lt hlt
    unfold fetch at h
    rw [ho, hx] at h
    cases hd : decode o x with
    | ok i => simp [hd] at h
    | error e => cases e; simp only [hd, Except.error.injEq] at h; exact .inr ⟨h.symm, o, x, ho, hx, hd⟩
  · refine .inl ⟨?_, by omega⟩
    unfold fetch at h
    cases ho : s.prog.slot? s.pc with
    | none => simp only [ho] at h; simp_all
    | some o =>
      cases hx : s.prog.slot? (s.pc + 1) with
      | none => simp only [ho, hx] at h; simp_all
      | some x => exact absurd (slot?_eq_some hx) hlt

/-- The fetch reads PROG and PC alone. -/
theorem fetch_congr {s t : State} (hp : s.prog = t.prog) (hpc : s.pc = t.pc) : fetch s = fetch t := by
  unfold fetch; rw [hp, hpc]

/-! ### The step -/

/-- The state in which the oracle stop leaves the engine: a fault, or the one digit emitted. -/
theorem oracleStop_cases (s : State) :
    (s.out = [] ∧ oracleStop s = s.raise .oracleNoEmit) ∨
    (∃ d, s.out = [d] ∧ oracleStop s = s.finishOracle d) ∨
    (2 ≤ s.out.length ∧ oracleStop s = s.raise .oracleMultiEmit) := by
  unfold oracleStop
  split <;> simp_all

/-- Everything a step can do. -/
inductive StepCase (s : State) : State → Prop where
  | halt (hl : s.prog.length ≤ s.pc) (hm : s.mode = .run) : StepCase s s.halt
  | noJump (hl : s.prog.length ≤ s.pc) (hm : s.mode = .oracle) : StepCase s (s.raise .oracleNoJump)
  | beyondEnd (hl : s.pc + 1 = s.prog.length) : StepCase s (s.raise .operandBeyondEnd)
  | badSlot (o x : Nat) (ho : s.prog.slot? s.pc = some o) (hx : s.prog.slot? (s.pc + 1) = some x)
      (hd : decode o x = .error .badSlotValue) : StepCase s (s.raise .badSlotValue)
  | oracleStop (i : Instr) (hf : fetch s = .ok i) (hm : s.mode = .oracle) (hj : i.isJump = true) :
      StepCase s (oracleStop s)
  | exec (i : Instr) (t : State) (hf : fetch s = .ok i) (hm : s.mode = .run ∨ i.isJump = false)
      (he : exec i s = .next t) : StepCase s t

theorem mode_cases (s : State) : s.mode = .run ∨ s.mode = .oracle := by cases s.mode <;> simp

theorem runFetched_of_exec {s : State} {i : Instr} (hm : s.mode = .run ∨ i.isJump = false) :
    runFetched i s = exec i s := by
  unfold runFetched
  rw [if_neg]
  rintro ⟨ho, hj⟩
  obtain h | h := hm <;> simp_all

theorem runFetched_of_stop {s : State} {i : Instr} (hm : s.mode = .oracle) (hj : i.isJump = true) :
    runFetched i s = .next (oracleStop s) := if_pos ⟨hm, hj⟩

/-- A step answers a next state only when STATUS is Running, and then by one of the six cases. -/
theorem step_cases {s t : State} (h : step s = .next t) : s.status = .running ∧ StepCase s t := by
  unfold step cycle at h
  by_cases hr : s.status = .running
  · refine ⟨hr, ?_⟩
    rw [if_pos hr] at h
    by_cases hl : s.prog.length ≤ s.pc
    · rw [if_pos hl] at h; cases h
      unfold passEnd
      obtain hm | hm := mode_cases s <;> rw [hm]
      · exact .halt hl hm
      · exact .noJump hl hm
    · rw [if_neg hl] at h
      cases hf : fetch s with
      | error code =>
        rw [hf] at h; cases h
        obtain ⟨rfl, hlen⟩ | ⟨rfl, o, x, ho, hx, hd⟩ := fetch_error hf
        · exact .beyondEnd (by omega)
        · exact .badSlot o x ho hx hd
      | ok i =>
        rw [hf] at h
        obtain hm | hm := mode_cases s
        · exact .exec i t hf (.inl hm) (by rw [← runFetched_of_exec (.inl hm)]; exact h)
        · cases hj : i.isJump with
          | true => have h' := (runFetched_of_stop hm hj).symm.trans h; cases h'; exact .oracleStop i hf hm hj
          | false => exact .exec i t hf (.inr hj) (by rw [← runFetched_of_exec (.inr hj)]; exact h)
  · rw [if_neg hr] at h; cases h

/-- A step changes neither MODE, PROG nor the parameters. -/
theorem step_keeps_setup {s t : State} (h : step s = .next t) :
    t.mode = s.mode ∧ t.prog = s.prog ∧ t.config = s.config := by
  obtain ⟨-, hc⟩ := step_cases h
  cases hc with
  | oracleStop i hf hm hj => obtain ⟨-, e⟩ | ⟨d, -, e⟩ | ⟨-, e⟩ := oracleStop_cases s <;> rw [e] <;> simp
  | exec i t hf hm he => exact exec_keeps_setup he
  | _ => simp

/-! ### Runs -/

/-- The induction over runs, once: what a step keeps, every later state of the run has. -/
theorem runSteps_keeps {P : State → Prop} (hstep : ∀ s t, P s → step s = .next t → P t) :
    ∀ (k : Nat) (s : State), P s → P (runSteps k s)
  | 0, _, h => h
  | k + 1, s, h => by
    unfold runSteps
    cases hs : step s with
    | next t => exact runSteps_keeps hstep k t (hstep s t h hs)
    | fault r => exact h
    | refused r => exact h

theorem runSteps_succ_of_next {s t : State} (h : step s = .next t) (k : Nat) : runSteps (k + 1) s = runSteps k t := by
  rw [runSteps, h]

/-- No step is taken from a state that is not Running. -/
theorem step_of_not_running {s : State} (h : s.status ≠ .running) : step s = .fault (.notRunning s.status) := if_neg h

theorem runSteps_of_not_running {s : State} (h : s.status ≠ .running) (k : Nat) : runSteps k s = s := by
  cases k with
  | zero => rfl
  | succ k => rw [runSteps, step_of_not_running h]

/-- Running `j + k` steps is running `j` and then `k`. -/
theorem runSteps_add (j k : Nat) (s : State) : runSteps (j + k) s = runSteps k (runSteps j s) := by
  induction j generalizing s with
  | zero => rw [Nat.zero_add]; rfl
  | succ j ih =>
    rw [Nat.add_right_comm]
    by_cases hr : s.status = .running
    · cases hs : step s with
      | next t => rw [runSteps_succ_of_next hs, runSteps_succ_of_next hs, ih]
      | fault r => simp only [runSteps, hs]; cases k <;> simp [runSteps, hs]
      | refused r => simp only [runSteps, hs]; cases k <;> simp [runSteps, hs]
    · simp only [runSteps_of_not_running hr]

end Sys2Proof.Machine
end

