-- ==== Sys2Proof/Laws/PerInstr.lean ====
section
/-! SUPPORT. Statements made per instruction: the family RoundTrip says that the decoder gives back a well-formed
instruction from its two slots. -/

namespace Sys2Proof.Laws.RoundTrip

/-- What the family says of one instruction. -/
def Statement (i : Instr) : Prop := i.wf = true → decode i.opcode i.operand = .ok i

theorem shiftA (x : Combo) : Statement (.shiftA x) := fun h => by
  simp only [Instr.opcode, Instr.operand, decode, decodeCombo_field h, Except.map]

theorem xorBLiteral (x : Nat) : Statement (.xorBLiteral x) := fun h => by
  simp only [Instr.opcode, Instr.operand, decode, decodeLiteral_ok_iff.2 ⟨of_decide_eq_true h, rfl⟩, Except.map]

theorem modB (x : Combo) : Statement (.modB x) := fun h => by
  simp only [Instr.opcode, Instr.operand, decode, decodeCombo_field h, Except.map]

theorem jumpIfANonzero (x : Nat) : Statement (.jumpIfANonzero x) := fun h => by
  simp only [Instr.opcode, Instr.operand, decode, decodeLiteral_ok_iff.2 ⟨of_decide_eq_true h, rfl⟩, Except.map]

theorem xorBC (x : Nat) : Statement (.xorBC x) := fun h => by
  simp only [Instr.opcode, Instr.operand, decode, decodeLiteral_ok_iff.2 ⟨of_decide_eq_true h, rfl⟩, Except.map]

theorem emit (x : Combo) : Statement (.emit x) := fun h => by
  simp only [Instr.opcode, Instr.operand, decode, decodeCombo_field h, Except.map]

theorem shiftB (x : Combo) : Statement (.shiftB x) := fun h => by
  simp only [Instr.opcode, Instr.operand, decode, decodeCombo_field h, Except.map]

theorem shiftC (x : Combo) : Statement (.shiftC x) := fun h => by
  simp only [Instr.opcode, Instr.operand, decode, decodeCombo_field h, Except.map]

end Sys2Proof.Laws.RoundTrip
end

