-- ==== Sys2Proof/Laws/Start.lean ====
section
/-! SUPPORT. What a Start can do, said once, and that the program store it writes has its one form. -/

namespace Sys2Proof.Machine

/-- A Start is accepted exactly when STATUS is not Running and the validation finds nothing. -/
theorem start_ok_iff {q : StartArgs} {s t : State} :
    start q s = .ok t ↔ s.status ≠ .running ∧ validate s.config q = none ∧ t = started s.config q := by
  unfold start
  by_cases hr : s.status = .running
  · simp [hr]
  · rw [if_neg hr]
    cases hv : validate s.config q with
    | none => simp [hr, eq_comm]
    | some e => simp

/-- What the validation accepts. -/
theorem validate_none_iff {cfg : Config} {q : StartArgs} :
    validate cfg q = none ↔ q.prog.length % 2 = 0 ∧ q.prog.length ≤ cfg.progMax ∧ (∀ v ∈ q.prog, 0 ≤ v ∧ v ≤ 7) ∧
      fitsRegister cfg q.a0 = true ∧ fitsRegister cfg q.b0 = true ∧ fitsRegister cfg q.c0 = true := by
  unfold validate
  by_cases h1 : q.prog.length % 2 = 1
  · simp [h1]
  · by_cases h2 : cfg.progMax < q.prog.length
    · simp [h1, h2]
    · by_cases h3 : q.prog.all (fun v => decide (0 ≤ v) && decide (v ≤ 7)) = true
      · have h3' : ∀ v ∈ q.prog, 0 ≤ v ∧ v ≤ 7 := by simpa [List.all_eq_true] using h3
        simp only [h1, h2, h3, if_false, Bool.not_true, Bool.false_eq_true]
        cases hA : fitsRegister cfg q.a0 <;> cases hB : fitsRegister cfg q.b0 <;> cases hC : fitsRegister cfg q.c0 <;>
          simp
        exact ⟨by omega, by omega, h3'⟩
      · have h3' : ¬ ∀ v ∈ q.prog, 0 ≤ v ∧ v ≤ 7 := by simpa [List.all_eq_true] using h3
        simp only [h1, h2, h3, if_false, Bool.not_false, if_true]
        simp [h3']

/-- The one operation that writes the program store, an accepted Start, leaves it in its one form. -/
theorem started_prog_wf {cfg : Config} {q : StartArgs} (h : validate cfg q = none) :
    (started cfg q).prog.wf = true := by
  obtain ⟨heven, -, hslots, -⟩ := validate_none_iff.1 h
  simp only [Memory.wf, started, List.length_map, heven, decide_true, Bool.true_and, List.all_map, List.all_eq_true,
    Function.comp, decide_eq_true_eq]
  intro v hv
  have := hslots v hv
  omega

/-- The program store at power-on has its one form. -/
theorem powerOn_prog_wf (cfg : Config) : (State.powerOn cfg).prog.wf = true := rfl

/-- `fitsRegister` as bounds. -/
theorem fitsRegister_iff {cfg : Config} {v : Int} :
    fitsRegister cfg v = true ↔
      ∀ w, cfg.regWidth = some w → -(2 ^ (w - 1) : Int) ≤ v ∧ v ≤ (2 ^ (w - 1) : Int) - 1 := by
  unfold fitsRegister
  cases h : cfg.regWidth with
  | none => simp
  | some w => simp

/-- Placing a pair keeps an even store even and every slot legal, where the pair is. -/
theorem placePair_wf {m : Memory} {pc o x : Nat} (h : m.wf = true) (ho : o ≤ 7) (hx : x ≤ 7) :
    (placePair m pc o x).wf = true := by
  simp only [Memory.wf, Bool.and_eq_true, decide_eq_true_eq, List.all_eq_true] at h ⊢
  obtain ⟨heven, hall⟩ := h
  unfold placePair
  refine ⟨?_, fun v hv => ?_⟩
  · simp only [List.length_set, List.length_append, List.length_replicate]; omega
  · obtain hv | rfl := List.mem_or_eq_of_mem_set hv
    · obtain hv | rfl := List.mem_or_eq_of_mem_set hv
      · obtain hv | hv := List.mem_append.1 hv
        · exact hall v hv
        · rw [List.eq_of_mem_replicate hv]; omega
      · exact ho
    · exact hx

/-- The pair placed stands at its slots. -/
theorem placePair_slots (m : Memory) (pc o x : Nat) :
    (placePair m pc o x).slot? pc = some o ∧ (placePair m pc o x).slot? (pc + 1) = some x := by
  unfold placePair Memory.slot?
  constructor
  · rw [List.getElem?_set_ne (by omega), List.getElem?_set_self]
    simp only [List.length_append, List.length_replicate]; omega
  · rw [List.getElem?_set_self]
    simp only [List.length_set, List.length_append, List.length_replicate]; omega

/-- The instruction of a word placed by `withFetchWord` is the one the next step fetches. -/
theorem fetch_withFetchWord {s : State} {nbits w : Nat} {i : Instr} (h : decodeTableWord nbits w = some i) :
    fetch (s.withFetchWord nbits w) = .ok i := by
  obtain ⟨ho, hx⟩ := placePair_slots s.prog s.pc (w % 2 ^ nbits / 8) (w % 2 ^ nbits % 8)
  unfold decodeTableWord at h
  unfold fetch
  show (match (placePair s.prog s.pc (w % 2 ^ nbits / 8) (w % 2 ^ nbits % 8)).slot? s.pc,
      (placePair s.prog s.pc (w % 2 ^ nbits / 8) (w % 2 ^ nbits % 8)).slot? (s.pc + 1) with
    | some o, some x => _
    | _, _ => _) = _
  rw [ho, hx]
  cases hd : decode (w % 2 ^ nbits / 8) (w % 2 ^ nbits % 8) with
  | ok j => rw [hd] at h; simpa [hd] using h
  | error e => rw [hd] at h; cases h

end Sys2Proof.Machine
end

