-- ==== Sys2Proof/Tests/Slice0.lean ====
section
/-! SUPPORT. Small tests of the model, one step each. Expected values are those of `95_test_vectors.md` (V<n>), of the
rules' examples (R<n>), or of the encodings of R66 written out by hand. Then, for every statement with hypotheses, a
witness that meets them. -/

namespace Sys2Proof.Tests

open Sys2Proof.Machine

/-- A Running engine in run mode with the parameters of `State.reset`. -/
def eng (a b c : Int) (pc : Nat) (prog : List Nat) : State :=
  { a := a, b := b, c := c, pc := pc, out := [], mode := .run, status := .running, prog := prog, config := Config.chosen }

/-- The same in oracle mode, with the digits emitted so far. -/
def orc (a : Int) (pc : Nat) (prog : List Nat) (out : List Digit) : State :=
  { eng a 0 0 pc prog with mode := .oracle, out := out }

/-- The next state of an outcome. -/
def nextOf : Host.Outcome State Fault Refusal → Option State
  | .next s => some s
  | .fault _ => none
  | .refused _ => none

/-- The accepted state of a Start. -/
def acceptedOf : Except LoadError State → Option State
  | .ok s => some s
  | .error _ => none

/-- The reason of a rejected Start. -/
def rejectedOf : Except LoadError State → Option LoadError
  | .ok _ => none
  | .error e => some e

/-! ### Well-formedness: each check refuses an ill-formed term -/

theorem test_wf_refuses_combo_literal_4 : (Combo.lit 4).wf = false := by decide
theorem test_wf_refuses_literal_8 : literalWf 8 = false := by decide
theorem test_wf_refuses_shiftA : (Instr.shiftA (.lit 4)).wf = false := by decide
theorem test_wf_refuses_xorBLiteral : (Instr.xorBLiteral 8).wf = false := by decide
theorem test_wf_refuses_modB : (Instr.modB (.lit 9)).wf = false := by decide
theorem test_wf_refuses_jump : (Instr.jumpIfANonzero 8).wf = false := by decide
theorem test_wf_refuses_xorBC : (Instr.xorBC 8).wf = false := by decide
theorem test_wf_refuses_emit : (Instr.emit (.lit 4)).wf = false := by decide
theorem test_wf_refuses_shiftB : (Instr.shiftB (.lit 5)).wf = false := by decide
theorem test_wf_refuses_shiftC : (Instr.shiftC (.lit 7)).wf = false := by decide
theorem test_wf_accepts_reserved : (Instr.emit .reserved).wf = true := by decide
theorem test_config_refuses_narrow_registers : (Config.mk (some 63) 8 none).wf = false := by decide
theorem test_config_refuses_odd_store : (Config.mk none 7 none).wf = false := by decide
theorem test_memory_refuses_odd_length : Memory.wf [0] = false := by decide
theorem test_memory_refuses_slot_8 : Memory.wf [0, 8] = false := by decide

/-! ### Decoding: the patterns of R66 written out, one word for each constructor -/

theorem test_decode_shiftA : decodeTableWord 6 0b000011 = some (.shiftA (.lit 3)) := by decide
theorem test_decode_xorBLiteral : decodeTableWord 6 0b001110 = some (.xorBLiteral 6) := by decide
theorem test_decode_modB : decodeTableWord 6 0b010110 = some (.modB (.reg .C)) := by decide
theorem test_decode_jump : decodeTableWord 6 0b011111 = some (.jumpIfANonzero 7) := by decide
theorem test_decode_xorBC : decodeTableWord 6 0b100001 = some (.xorBC 1) := by decide
theorem test_decode_emit : decodeTableWord 6 0b101100 = some (.emit (.reg .A)) := by decide
theorem test_decode_shiftB : decodeTableWord 6 0b110101 = some (.shiftB (.reg .B)) := by decide
theorem test_decode_shiftC : decodeTableWord 6 0b111111 = some (.shiftC .reserved) := by decide
theorem test_decode_in_a_byte : decodeTableWord 8 0b00101100 = some (.emit (.reg .A)) := by decide
theorem test_decode_rejects_a_seventh_bit : decodeTableWord 8 0b01000000 = none := by decide
theorem test_decode_rejects_operand_8 : decode 1 8 = .error .badSlotValue := rfl
/-- R66: "each of the eight opcode values selects one instruction": no two rows share a word. -/
theorem test_table_rows_are_disjoint :
    opcodeTable.Pairwise (fun r t => r.pattern &&& t.mask ≠ t.pattern ∧ r.mask = t.mask) := by decide
/-- R74: the slots `2,4,1,1` are listed as `mod-B A` then `xor-B-literal 1`. -/
theorem test_listing : (Instr.modB (.reg .A)).listing = "mod-B A" ∧ (Instr.xorBLiteral 1).listing = "xor-B-literal 1" ∧
    (Instr.xorBC 0).listing = "xor-B-C (0)" ∧ (Instr.shiftC .reserved).listing = "shift-C #7" := by decide

/-! ### The instructions, one step each -/

/-- V5: floor on a negative value. -/
theorem test_shiftA_rounds_down :
    (nextOf (step (eng (-5) 0 0 0 [0, 1]))).map (fun t => (t.a, t.pc)) = some (-3, 2) := by decide
/-- V7: the amount is A itself, negative. -/
theorem test_shiftA_negative_amount :
    (nextOf (step (eng (-1) 0 0 0 [0, 4]))).map (fun t => (t.a, t.pc, t.status)) =
      some (-1, 0, .faulted .negShift) := by decide
/-- V12: an amount beyond the width. -/
theorem test_shiftB_amount_beyond_width :
    (nextOf (step (eng (-5) 0 100 0 [6, 6]))).map (fun t => (t.a, t.b)) = some (-5, -1) := by decide
/-- R92: x = 0 copies A into B (V11). -/
theorem test_shiftB_copies : (nextOf (step (eng (-7) 0 0 0 [6, 0]))).map (fun t => (t.a, t.b)) = some (-7, -7) := by decide
/-- V13: C shifted by the old C. -/
theorem test_shiftC_by_old_C : (nextOf (step (eng 64 0 3 0 [7, 6]))).map (fun t => (t.a, t.c)) = some (64, 8) := by decide
/-- V15: packed 0o77 is reserved. -/
theorem test_shiftC_reserved :
    (nextOf (step (eng 5 0 0 0 [7, 7]))).map (fun t => (t.c, t.pc, t.status)) =
      some (0, 0, .faulted .reservedCombo) := by decide
/-- V20. -/
theorem test_xorBLiteral : (nextOf (step (eng 0 29 0 0 [1, 7]))).map (fun t => (t.b, t.pc)) = some (26, 2) := by decide
/-- V22: negative B. -/
theorem test_xorBLiteral_negative : (nextOf (step (eng 0 (-8) 0 0 [1, 7]))).map State.b = some (-1) := by decide
/-- V26: B reduces itself, Euclidean. -/
theorem test_modB_negative : (nextOf (step (eng 0 (-13) 0 0 [2, 5]))).map State.b = some 3 := by decide
/-- V23. -/
theorem test_modB : (nextOf (step (eng 0 0 9 0 [2, 6]))).map (fun t => (t.b, t.c)) = some (1, 9) := by decide
/-- V43: a negative A takes the jump. -/
theorem test_jump_taken_on_negative_A : (nextOf (step (eng (-1) 0 0 0 [3, 4, 5, 4, 5, 5]))).map State.pc = some 4 := by decide
/-- V40: not taken. -/
theorem test_jump_not_taken : (nextOf (step (eng 0 0 0 0 [3, 0]))).map State.pc = some 2 := by decide
/-- V29. -/
theorem test_xorBC : (nextOf (step (eng 0 2024 43690 0 [4, 0]))).map (fun t => (t.b, t.c)) = some (44354, 43690) := by decide
/-- V32 and V31: operand 7 is ignored; a negative operand. -/
theorem test_xorBC_operand_ignored : (nextOf (step (eng 0 6 3 0 [4, 7]))).map State.b = some 5 ∧
    (nextOf (step (eng 0 (-1) 5 0 [4, 0]))).map State.b = some (-6) := by decide
/-- V51: a negative value's residue. -/
theorem test_emit_negative :
    (nextOf (step (eng 0 (-3) 0 0 [5, 5]))).map (fun t => (t.out, t.b, t.pc)) = some ([5], -3, 2) := by decide
/-- V54: OUT is full. -/
theorem test_emit_overflow :
    (nextOf (step { eng 0 0 0 2 [5, 0, 5, 1] with out := [0], config := Config.mk none 8 (some 1) })).map
      (fun t => (t.out, t.pc, t.status)) = some ([0], 2, .faulted .outputOverflow) := by decide

/-! ### The cycle, the oracle, Start and the host's view -/

/-- V45, third step: PC = L - 1. -/
theorem test_operand_beyond_end :
    (nextOf (step (eng 5 0 0 3 [3, 1, 0, 0]))).map (fun t => (t.pc, t.status)) =
      some (3, .faulted .operandBeyondEnd) := by decide
/-- P3: an odd PC reads the pair at 3 and 4. -/
theorem test_odd_pc : (nextOf (step (eng 13 0 0 3 [3, 3, 7, 5, 4, 3, 6, 0]))).map (fun t => (t.out, t.pc)) =
    some ([5], 5) := by decide
/-- V47: the empty program halts. -/
theorem test_empty_program_halts : (nextOf (step (eng 0 0 0 0 []))).map State.status = some .halted := by decide
/-- R70: a slot above 7, which the store of a started run never holds. -/
theorem test_bad_slot : (nextOf (step (eng 0 0 0 0 [1, 8]))).map State.status = some (.faulted .badSlotValue) := by decide
/-- V70, third step, and V75: the oracle stop. -/
theorem test_oracle_stop :
    (nextOf (step (orc 14680 4 [0, 3, 5, 4, 3, 0] [0]))).map (fun t => (t.pc, t.status)) = some (4, .oracleDone 0) ∧
    (nextOf (step (orc 1 4 [5, 4, 5, 4, 3, 0] [1, 1]))).map State.status = some (.faulted .oracleMultiEmit) := by decide
/-- V73 and V76. -/
theorem test_oracle_faults :
    (nextOf (step (orc 5 0 [3, 0] []))).map State.status = some (.faulted .oracleNoEmit) ∧
    (nextOf (step (orc 3 2 [5, 4] [3]))).map State.status = some (.faulted .oracleNoJump) := by decide
/-- V60 to V63, V66. -/
theorem test_start_rejections :
    rejectedOf (start ⟨.run, [0], 0, 0, 0⟩ State.reset) = some .oddLength ∧
    rejectedOf (start ⟨.run, [0, 8], 0, 0, 0⟩ State.reset) = some .digitRange ∧
    rejectedOf (start ⟨.run, [0, -1], 0, 0, 0⟩ State.reset) = some .digitRange ∧
    rejectedOf (start ⟨.run, [1, 2, 9], 0, 0, 0⟩ State.reset) = some .oddLength ∧
    rejectedOf (start ⟨.run, [3, 0], 1, 0, 0⟩ (eng 1 0 0 0 [3, 0])) = some .busy := by decide
/-- V64 and V65: the edges of a 64-bit register. -/
theorem test_start_register_range :
    rejectedOf (start ⟨.run, [0, 4], 2 ^ 63, 0, 0⟩ (State.powerOn ⟨some 64, 8, none⟩)) = some .regRange ∧
    (acceptedOf (start ⟨.run, [0, 4], 2 ^ 63 - 1, 0, 0⟩ (State.powerOn ⟨some 64, 8, none⟩))).map State.status =
      some .running := by decide
/-- V67: a reserved combo operand passes the validation. -/
theorem test_start_accepts_reserved_combo :
    (acceptedOf (start ⟨.oracle, [5, 7, 0, 0], 1, 2, 3⟩ State.reset)).map (fun t => (t.prog, t.pc, t.mode, t.b)) =
      some ([5, 7, 0, 0], 0, .oracle, 2) := by decide
/-- P4: STATUSW.CAUSE = 3, STATE = 4. -/
theorem test_statusw_fault : ({ eng 1 5 0 7 [] with status := .faulted .operandBeyondEnd } : State).statusw = 0x0304 := by
  decide
/-- R35: STATE = 3, DIGIT = 5, MODE = 1. -/
theorem test_statusw_oracle_done : ({ orc 0 4 [] [5] with status := .oracleDone 5 } : State).statusw = 0x006b := by decide
/-- R42: the source's example text. -/
theorem test_render : renderOut [4, 6, 3, 5, 6, 3, 5, 2, 1, 0] = "4,6,3,5,6,3,5,2,1,0" ∧ renderOut [] = "" := by decide
/-- The word of the opcode table placed after reset is the instruction the next step runs (packed 0o54, `emit A`). -/
theorem test_withFetchWord :
    (nextOf (step (State.reset.withFetchWord 8 0b101100))).map (fun t => (t.out, t.pc)) = some ([0], 2) := by decide

/-! ### Witnesses: for each statement with hypotheses, concrete operands and states that meet them, clause by clause, at the
boundary of each range. -/

theorem witness_DecodeInvertsEncode : (Instr.jumpIfANonzero 7).wf = true ∧ (Instr.emit .reserved).wf = true ∧ 6 ≤ 6 := by
  decide

theorem witness_DecodeIsTotalAndFaithful : decode 7 7 = .ok (.shiftC .reserved) ∧ decode 0 0 = .ok (.shiftA (.lit 0)) ∧
    7 < 8 := ⟨rfl, rfl, by decide⟩

theorem witness_slots_in_range : (0 : Nat) ≤ 7 ∧ 7 ≤ 7 ∧ decodeTableWord 6 (7 * 8 + 7) = some (.shiftC .reserved) := by decide

theorem witness_combo_literal_in_range : (3 : Nat) ≤ 3 ∧ decodeCombo 3 = .ok (.lit 3) := ⟨by decide, rfl⟩

theorem witness_ReservedCombosFaultOnlyWhenExecuted : ([5, 7] : List Int).length = ([0, 0] : List Int).length ∧
    (∀ v ∈ ([5, 7] : List Int), 0 ≤ v ∧ v ≤ 7) ∧ ∀ v ∈ ([0, 0] : List Int), 0 ≤ v ∧ v ≤ 7 := by decide

theorem witness_ShiftIsFloorOfDivision : (0 : Int) ≤ 0 ∧ (-1 : Int) * 2 ^ (3 : Int).toNat ≤ -5 ∧
    -(2 ^ (3 : Int).toNat) ≤ (-8 : Int) ∧ (7 : Int) < 2 ^ (3 : Int).toNat ∧ (eng (-1) 0 0 0 []).readReg .A < 0 := by decide

theorem witness_ModuloEightIsEuclidean : (8 : Int) ∣ -3 - 5 ∧ (0 : Int) ≤ 5 ∧ (5 : Int) ≤ 7 ∧ 2 < 3 := by decide

theorem witness_FiniteWidthRegistersAreExact : 4 ≤ 4 ∧ withinWidth 4 (-8) ∧ withinWidth 4 7 ∧ (0 : Int) ≤ 0 := by
  unfold withinWidth; decide

/-- The shift family: an amount of 0, a negative one, A as its own amount, and an amount of exactly the width. -/
theorem witness_shift_family : decodeCombo 7 = .ok .reserved ∧
    comboValue (eng 9 0 0 0 []) (.lit 0) = .ok 0 ∧ comboValue (eng 9 (-1) 0 0 []) (.reg .B) = .ok (-1) ∧
    (0 : Int) ≤ (eng 0 0 0 0 []).a ∧ (eng (-1) 0 0 0 []).a < 0 ∧
    comboValue (eng (-8) 3 0 0 []) (.reg .B) = .ok ((3 : Nat) : Int) ∧ -(2 ^ 3) ≤ (eng (-8) 3 0 0 []).a ∧
    (eng 7 3 0 0 []).a < 2 ^ 3 ∧ (0 : Int) ≤ (eng 0 0 0 0 []).b ∧ (0 : Int) ≤ (eng 0 0 0 0 []).c ∧
    (eng 64 0 3 0 []).a = 64 ∧ (eng 64 0 3 0 []).c = 3 ∧ (eng (-5) 0 0 0 []).a = -5 ∧ (eng 729 0 0 0 []).a = 729 :=
  ⟨rfl, rfl, rfl, by decide, by decide, rfl, by decide, by decide, by decide, by decide, rfl, rfl, rfl, rfl⟩

theorem witness_NegativeShiftAmountFaults : comboValue (eng 1 0 (-1) 0 []) (.reg .C) = .ok (-1) ∧ (-1 : Int) < 0 ∧
    (eng 1 0 (-1) 0 []).status = .running ∧
    ∃ t, exec (.shiftB (.reg .C)) (eng 1 0 (-1) 0 []) = .next t ∧ t.status = .faulted .negShift :=
  ⟨rfl, by decide, rfl, _, rfl, rfl⟩

theorem witness_B_family : (7 : Nat) ≤ 7 ∧ 3 ≤ 3 ∧ comboValue (eng 0 0 (-1) 0 []) (.reg .C) = .ok (-1) ∧
    (eng 0 0 (-1) 0 []).c = -1 ∧ (eng 0 (-13) 0 0 []).b = -13 ∧ (eng 0 0 9 0 []).c = 9 ∧
    (eng 0 4 4 0 []).b = (eng 0 4 4 0 []).c ∧ ∃ t, exec (.modB (.reg .C)) (eng 0 0 (-1) 0 []) = .next t :=
  ⟨by decide, by decide, rfl, rfl, rfl, rfl, rfl, _, rfl⟩

/-- A taken and a not-taken jump, a target L, a self-jump, and a jump fetched in oracle mode. -/
theorem witness_JumpIfANonzeroSetsPc : (eng (-1) 0 0 0 []).a ≠ 0 ∧ (eng 0 0 0 0 []).a = 0 ∧
    (eng 1 0 0 0 [3, 2]).prog.length ≤ 2 ∧ fetch (eng 1 0 0 0 [3, 0]) = .ok (.jumpIfANonzero (eng 1 0 0 0 [3, 0]).pc) ∧
    (orc 1 0 [3, 0] []).mode = .oracle ∧ fetch (orc 1 0 [3, 0] []) = .ok (.jumpIfANonzero 0) :=
  ⟨by decide, by decide, by decide, rfl, rfl, rfl⟩

/-- Targets L, L - 1 and L - 2, the three sides of the clauses. -/
theorem witness_JumpTargetIsUnchecked :
    (fetch (eng 1 0 0 0 [3, 4, 0, 0]) = .ok (.jumpIfANonzero 4) ∧ (eng 1 0 0 0 [3, 4, 0, 0]).prog.length ≤ 4) ∧
    (fetch (eng 1 0 0 0 [3, 3, 0, 0]) = .ok (.jumpIfANonzero 3) ∧ 3 + 1 = (eng 1 0 0 0 [3, 3, 0, 0]).prog.length) ∧
    (fetch (eng 1 0 0 0 [3, 2, 5, 7]) = .ok (.jumpIfANonzero 2) ∧ (eng 1 0 0 0 [3, 2, 5, 7]).prog.slot? 2 = some 5 ∧
      (eng 1 0 0 0 [3, 2, 5, 7]).prog.slot? 3 = some 7 ∧ decode 5 7 = .ok (.emit .reserved)) :=
  ⟨⟨rfl, by decide⟩, ⟨rfl, rfl⟩, rfl, rfl, rfl, rfl⟩

/-- OUT one below a capacity of 1, and at it; and an emit with unbounded OUT. -/
theorem witness_emit : comboValue (eng 3 0 0 0 []) (.reg .A) = .ok 3 ∧
    (∀ n, ({ eng 3 0 0 0 [] with config := ⟨none, 8, some 1⟩ } : State).config.outCapacity = some n →
      (eng 3 0 0 0 []).out.length ≠ n) ∧
    ({ eng 3 0 0 0 [] with out := [0], config := ⟨none, 8, some 1⟩ } : State).outFull = true ∧
    (eng 3 0 0 0 []).config.outCapacity = none ∧ ∃ t, exec (.emit (.reg .A)) (eng 3 0 0 0 []) = .next t :=
  ⟨rfl, by rintro n h; cases h; decide, rfl, rfl, _, rfl⟩

/-- Every instruction answers a next state, so the frame statements are about something. -/
theorem witness_frames : ∀ i ∈ [Instr.shiftA (.lit 1), .shiftB (.lit 1), .shiftC (.lit 1), .xorBLiteral 1, .modB (.lit 1),
    .xorBC 1, .jumpIfANonzero 1, .emit (.lit 1)], ∃ t, exec i (eng 8 1 2 0 []) = .next t := by
  intro i hi
  fin_cases hi <;> exact ⟨_, rfl⟩

/-- The fault of a slot of 8 has its cause at PC and PC + 1; a store of odd length, or a slot of 8 elsewhere, is none. -/
theorem witness_FaultsHaveTheListedCauses :
    (∃ t, step (eng 0 0 0 0 [1, 8]) = .next t ∧ t.status = .faulted .badSlotValue ∧ causeHolds .badSlotValue t) ∧
    ¬ causeHolds .badSlotValue (eng 0 0 0 0 [0, 0, 0]) ∧ ¬ causeHolds .badSlotValue (eng 0 0 0 0 [1, 7, 8, 0]) := by
  refine ⟨⟨_, rfl, rfl, 1, 8, rfl, rfl, by decide⟩, ?_, ?_⟩ <;>
  · rintro ⟨o, x, ho, hx, h⟩
    cases ho; cases hx
    exact absurd h (by decide)

/-- Two states that agree on a shift-A's sources and differ in C, MODE and PROG; two that agree on the sources of a
shift-B by A and of a mod-B of A and differ in B; and two in which a shift-C by B faults. -/
theorem witness_InstructionsReadOnlyTheirSources :
    comboValue (eng 8 1 2 0 []) (.reg .B) = comboValue { orc 8 0 [0, 0] [] with b := 1, c := 5 } (.reg .B) ∧
    (∃ t, exec (.shiftA (.reg .B)) (eng 8 1 2 0 []) = .next t) ∧
    (∃ t, exec (.shiftA (.reg .B)) { orc 8 0 [0, 0] [] with b := 1, c := 5 } = .next t) ∧
    comboValue (eng 0 1 2 0 []) (.reg .A) = comboValue (eng 0 4 2 0 []) (.reg .A) ∧
    comboValue (eng 0 1 2 0 []) (.reg .A) = .ok 0 ∧ (eng 0 1 2 0 []).b ≠ (eng 0 4 2 0 []).b ∧
    (∃ t, exec (.shiftC (.reg .B)) (eng 8 (-1) 2 0 []) = .next t ∧ t.status = .faulted .negShift) ∧
    (eng 8 (-1) 2 0 []).c = ({ eng 8 (-1) 2 0 [0, 0] with mode := .oracle } : State).c :=
  ⟨rfl, ⟨_, rfl⟩, ⟨_, rfl⟩, rfl, rfl, by decide, ⟨_, rfl, rfl⟩, rfl⟩

/-- A pair at an odd PC at the very end of PROG, and a jump in oracle mode. -/
theorem witness_StepRunsTheDecodedInstruction : (Instr.emit (.lit 3)).wf = true ∧
    (eng 0 0 0 1 [0, 5, 3, 0]).prog.slot? 1 = some (Instr.emit (.lit 3)).opcode ∧
    (eng 0 0 0 1 [0, 5, 3, 0]).prog.slot? 2 = some (Instr.emit (.lit 3)).operand ∧
    (orc 0 0 [3, 7] []).prog.slot? 0 = some (Instr.jumpIfANonzero 7).opcode ∧ (Instr.jumpIfANonzero 7).isJump = true := by
  decide

/-- Each check of R76 with PC at L, L - 1 and L - 2, and a slot of 8. -/
theorem witness_StepChecksInOrder : State.reset.status ≠ .running ∧
    (eng 0 0 0 2 [0, 0]).prog.length ≤ 2 ∧ (orc 0 2 [0, 0] []).mode = .oracle ∧
    (eng 0 0 0 1 [0, 0]).pc + 1 = (eng 0 0 0 1 [0, 0]).prog.length ∧
    (eng 0 0 0 0 [0, 8]).pc + 1 < (eng 0 0 0 0 [0, 8]).prog.length ∧ (eng 0 0 0 0 [0, 8]).prog.slot? 1 = some 8 := by decide

/-- One state for each link of the chain of R120, reserved before full among them. -/
theorem witness_FirstConditionInOrderIsReported :
    [eng 0 0 0 0 [], orc 0 0 [] [], eng 0 0 0 1 [0, 0], eng 0 0 0 0 [8, 7], orc 0 0 [3, 7] [], orc 0 0 [3, 7] [4],
      { eng 0 0 0 0 [5, 7] with config := ⟨none, 8, some 0⟩ }, eng (-1) 0 0 0 [0, 4],
      { eng 0 0 0 0 [5, 0] with config := ⟨none, 8, some 0⟩ }, eng 0 0 0 0 [1, 7]].map
      (fun s => (nextOf (step s)).map State.status) =
    [some .halted, some (.faulted .oracleNoJump), some (.faulted .operandBeyondEnd), some (.faulted .badSlotValue),
      some (.faulted .oracleNoEmit), some (.oracleDone 4), some (.faulted .reservedCombo), some (.faulted .negShift),
      some (.faulted .outputOverflow), some .running] := by decide

theorem witness_faulting_step : (eng 5 0 0 0 [7, 7]).status = .running ∧
    ∃ t, step (eng 5 0 0 0 [7, 7]) = .next t ∧ t.status = .faulted .reservedCombo := ⟨rfl, _, rfl, rfl⟩

/-- A halting step; a fall-through to L and a jump to L; the empty program. -/
theorem witness_HaltIsPcPastTheEnd :
    (∃ t, step (eng 0 0 0 2 [0, 0]) = .next t ∧ t.status = .halted) ∧
    (∃ t, step (eng 0 0 0 0 [1, 0]) = .next t ∧ t.status = .running ∧ t.prog.length ≤ t.pc) ∧
    (∃ t, step (eng 1 0 0 0 [3, 2]) = .next t ∧ t.status = .running ∧ t.prog.length ≤ t.pc) ∧
    ∃ t, start ⟨.run, [], 0, 0, 0⟩ State.reset = .ok t :=
  ⟨⟨_, rfl, rfl⟩, ⟨_, rfl, rfl, by decide⟩, ⟨_, rfl, rfl, by decide⟩, _, rfl⟩

theorem witness_FetchReadsThePairAtPc : (eng 0 0 0 1 [0, 5, 3, 0]).pc + 1 < (eng 0 0 0 1 [0, 5, 3, 0]).prog.length ∧
    fetch (eng 0 0 0 1 [0, 5, 3, 0]) = .ok (.emit (.lit 3)) := ⟨by decide, rfl⟩

theorem witness_PcAdvancesByTwoUnlessJumpTaken :
    (fetch (eng 1 0 0 0 [3, 5]) = .ok (.jumpIfANonzero 5) ∧ ∃ t, step (eng 1 0 0 0 [3, 5]) = .next t ∧ t.status = .running) ∧
    (fetch (eng 0 0 0 0 [3, 5]) = .ok (.jumpIfANonzero 5) ∧ ∃ t, step (eng 0 0 0 0 [3, 5]) = .next t ∧ t.status = .running) :=
  ⟨⟨rfl, _, rfl, rfl⟩, rfl, _, rfl, rfl⟩

/-- A Running state with a next one, a final state, and a Start from a final state. -/
theorem witness_StatusLifecycle : (∃ t, step (eng 0 0 0 0 []) = .next t) ∧
    ({ eng 0 0 0 0 [] with status := .halted } : State).status.final = true ∧
    ∃ t, start ⟨.run, [], 0, 0, 0⟩ { eng 0 0 0 0 [] with status := .halted } = .ok t := ⟨⟨_, rfl⟩, rfl, _, rfl⟩

theorem witness_OutputIsAppendOnlyByEmit :
    (eng 3 0 0 0 []).outFull = State.outFull { eng 3 0 0 0 [] with out := [1, 2] } ∧
    (∃ t, exec (.emit (.reg .A)) (eng 3 0 0 0 []) = .next t) ∧ ∃ t, step (eng 3 0 0 0 [5, 4]) = .next t :=
  ⟨rfl, ⟨_, rfl⟩, _, rfl⟩

/-- An accepted Start in each mode (R136): the premise of the statements about runs. -/
theorem witness_accepted_starts : (∃ t, start ⟨.run, [0, 3, 5, 4, 3, 0], 117440, 0, 0⟩ State.reset = .ok t) ∧
    (∃ t, start ⟨.oracle, [0, 3, 5, 4, 3, 0], 117440, 0, 0⟩ State.reset = .ok t) ∧ State.reset.config.wf = true :=
  ⟨⟨_, rfl⟩, ⟨_, rfl⟩, rfl⟩

/-- A self-jump at the highest target, slot 7 (its operand in slot 8). -/
theorem witness_SelfJumpNeverEnds : (eng 1 0 0 7 [0, 0, 0, 0, 0, 0, 0, 3, 7, 0]).a ≠ 0 ∧ 7 ≤ 7 ∧
    (eng 1 0 0 7 [0, 0, 0, 0, 0, 0, 0, 3, 7, 0]).prog.slot? 7 = some 3 ∧
    (eng 1 0 0 7 [0, 0, 0, 0, 0, 0, 0, 3, 7, 0]).prog.slot? 8 = some 7 := by decide

theorem witness_RunWithoutTakenJumpEnds : ∃ t, start ⟨.run, [3, 0], 0, 0, 0⟩ State.reset = .ok t ∧
    ∀ k, k ≤ 1 → takesJump (runSteps k t) = false :=
  ⟨_, rfl, by decide⟩

/-- The three cases of the oracle stop: one digit, none, two. -/
theorem witness_OracleStopsAtTheFirstJump : (orc 0 2 [0, 0, 3, 7] [5]).prog.slot? 2 = some 3 ∧
    (orc 0 2 [0, 0, 3, 7] [5]).prog.slot? 3 = some 7 ∧ (orc 0 2 [0, 0, 3, 7] [5]).out = [5] ∧
    (orc 0 2 [0, 0, 3, 7] []).out = [] ∧ 2 ≤ (orc 0 2 [0, 0, 3, 7] [5, 6]).out.length := by decide

theorem witness_OracleWithoutJumpFaults : (orc 0 2 [5, 0] [0]).status = .running ∧ (orc 0 2 [5, 0] [0]).mode = .oracle ∧
    (orc 0 2 [5, 0] [0]).prog.length ≤ (orc 0 2 [5, 0] [0]).pc := by decide

/-- A rejected Start; the last slot but one, and the last slot, where the fetch itself faults. -/
theorem witness_OracleStepsAsTheFullEngine :
    rejectedOf (start ⟨.run, [0], 0, 0, 0⟩ State.reset) = some .oddLength ∧ (eng 8 0 0 0 [0, 1]).pc < (eng 8 0 0 0 [0, 1]).prog.length ∧
    (∀ x, fetch (eng 8 0 0 0 [0, 1]) ≠ .ok (.jumpIfANonzero x)) ∧ (∃ t, step (eng 8 0 0 0 [0, 1]) = .next t) ∧
    (eng 8 0 0 1 [0, 3]).pc < (eng 8 0 0 1 [0, 3]).prog.length ∧
    ∀ x, fetch (eng 8 0 0 1 [0, 3]) ≠ .ok (.jumpIfANonzero x) :=
  ⟨rfl, by decide, fun x h => (by cases h), ⟨_, rfl⟩, by decide, fun x h => (by cases h)⟩

/-- An oracle pass that is Running after one step and done after two (the run-mode start is accepted too). -/
theorem witness_OraclePassIsAPrefixOfTheRun : ∃ o r, start ⟨.oracle, [5, 4, 3, 0], 6, 0, 0⟩ State.reset = .ok o ∧
    start ⟨.run, [5, 4, 3, 0], 6, 0, 0⟩ State.reset = .ok r ∧ (runSteps 1 o).status = .running ∧
    (runSteps 2 o).status = .oracleDone 6 := ⟨_, _, rfl, rfl, by decide, by decide⟩

/-- A state the invariant holds of, with a next state. -/
theorem witness_StepKeepsTheInvariant : Inv (eng 1 0 0 0 []) ∧ ∃ t, step (eng 1 0 0 0 []) = .next t :=
  ⟨⟨rfl, rfl, by decide, by decide, fun n h => (by cases h), fun r => (by cases r <;> rfl), fun h => (by cases h),
    fun h => (by cases h), fun h => (by cases h), fun d h => (by cases h), fun c h => (by cases h)⟩, _, rfl⟩

theorem witness_configurations : (Config.mk (some 64) 0 (some 0)).wf = true ∧ Config.chosen.wf = true := by decide

/-- A Start and a step away from power-on. -/
theorem witness_ReachableStatesAreSound : ∃ s, Reachable Config.chosen s ∧ s.status = .halted :=
  ⟨_, .step (.start (q := ⟨.run, [], 0, 0, 0⟩) .powerOn rfl) rfl, rfl⟩

theorem witness_RegisterWidthNeverGrows : 4 ≤ 4 ∧ ∀ r, withinWidth 4 ((eng (-8) 7 0 0 [0, 0]).readReg r) :=
  ⟨le_refl 4, fun r => by cases r <;> (unfold withinWidth; decide)⟩

theorem witness_NonNegativeRegistersStaySo : (eng 0 7 1 0 [0, 5]).status = .running ∧
    ∀ r, 0 ≤ (eng 0 7 1 0 [0, 5]).readReg r := ⟨rfl, fun r => by cases r <;> decide⟩

/-- Accepted and rejected Starts: Running, a rejection, an acceptance. -/
theorem witness_StartSetsTheWholeState : (eng 0 0 0 0 []).status = .running ∧ State.reset.status ≠ .running ∧
    validate State.reset.config ⟨.run, [0], 0, 0, 0⟩ = some .oddLength ∧
    validate State.reset.config ⟨.run, [0, 0], 0, 0, 0⟩ = none := by decide

/-- Each LoadError at its boundary: length PROG_MAX and PROG_MAX + 2, elements 7, 8 and -1, values at both register edges. -/
theorem witness_StartRejectsInOrder :
    [[0], [0, 0, 0, 0], [0, 7], [0, 8], [0, -1]].map
        (fun p => rejectedOf (start ⟨.run, p, 0, 0, 0⟩ (State.powerOn ⟨some 64, 2, none⟩))) =
      [some .oddLength, some .progTooLong, none, some .digitRange, some .digitRange] ∧
    [-2 ^ 63, 2 ^ 63 - 1, 2 ^ 63, -2 ^ 63 - 1].map
        (fun v => rejectedOf (start ⟨.run, [0, 0], v, v, v⟩ (State.powerOn ⟨some 64, 2, none⟩))) =
      [none, none, some .regRange, some .regRange] := by decide

theorem witness_StartForgetsEarlierRuns : State.reset.status ≠ .running ∧
    ({ eng 5 6 7 2 [0, 0] with status := .halted, out := [3] } : State).status ≠ .running ∧
    State.reset.config = ({ eng 5 6 7 2 [0, 0] with status := .halted, out := [3] } : State).config ∧
    ∃ t, start ⟨.run, [0, 0], 1, 0, 0⟩ State.reset = .ok t := ⟨by decide, by decide, rfl, _, rfl⟩

theorem witness_HostReadsResultsOfEndedRunsOnly : (Status.halted).final = true ∧ (Status.oracleDone 7).final = true ∧
    (Status.faulted .negShift).final = true ∧ Status.running.final = false ∧ Status.idle.final = false := by decide

end Sys2Proof.Tests
end

/-! ## The state family (`10_state.md`): PC, STATUS, OUT, MODE and PROG over a step, and the fields of STATUSW -/

namespace Sys2Proof.Machine

/-! ### What `exec` answers: the converses of `exec_cases` -/

theorem shiftInto_of_negative {s : State} {q : Reg} (r : Reg) (hq : s.readReg q < 0) :
    shiftInto r (.reg q) s = .error .negShift := by
  simp [shiftInto, shiftAmount, comboValue, hq]

/-- Each own effect is the one `exec` answers. -/
theorem ExecEffect.exec_eq {i : Instr} {s t : State} (h : ExecEffect s i t) : exec i s = .next t := by
  cases h with
  | shiftA k n hn h0 => exact conclude_next_iff.2 (.inl (shiftInto_ok_iff.2 ⟨n, hn, h0, rfl⟩))
  | xorBLiteral x => rfl
  | modB k v hv => simp [exec, execModB, hv, State.conclude]
  | jumpTaken x ha => simp [exec, execJumpIfANonzero, ha]
  | jumpNotTaken x ha => simp [exec, execJumpIfANonzero, ha]
  | xorBC x => rfl
  | emit k v hv hf => simp [exec, execEmit, hv, hf, State.conclude]
  | shiftB k n hn h0 => exact conclude_next_iff.2 (.inl (shiftInto_ok_iff.2 ⟨n, hn, h0, rfl⟩))
  | shiftC k n hn h0 => exact conclude_next_iff.2 (.inl (shiftInto_ok_iff.2 ⟨n, hn, h0, rfl⟩))

/-- Each fault is the one `exec` raises. -/
theorem ExecFault.exec_eq {i : Instr} {s : State} {code : FaultCode} (h : ExecFault i s code) :
    exec i s = .next (s.raise code) := by
  cases h with
  | reserved hi =>
    simp only [List.mem_cons, List.not_mem_nil, or_false] at hi
    obtain rfl | rfl | rfl | rfl | rfl := hi <;> rfl
  | negative r hr hi =>
    simp only [List.mem_cons, List.not_mem_nil, or_false] at hi
    obtain rfl | rfl | rfl := hi <;>
      exact conclude_next_iff.2 (.inr ⟨_, shiftInto_of_negative _ hr, rfl⟩)
  | full k v hi hv hf => subst hi; simp [exec, execEmit, hv, hf, State.conclude]

theorem conclude_answers (s : State) (e : Except FaultCode State) : ∃ t, s.conclude e = .next t := by
  cases e with
  | ok t => exact ⟨t, rfl⟩
  | error code => exact ⟨s.raise code, rfl⟩

/-- Every instruction answers a next state: a fault of the engine is one too (R118). -/
theorem exec_answers (i : Instr) (s : State) : ∃ t, exec i s = .next t := by
  cases i with
  | shiftA k => exact conclude_answers s _
  | xorBLiteral x => exact ⟨_, rfl⟩
  | modB k => exact conclude_answers s _
  | jumpIfANonzero x => exact ⟨_, rfl⟩
  | xorBC x => exact ⟨_, rfl⟩
  | emit k => exact conclude_answers s _
  | shiftB k => exact conclude_answers s _
  | shiftC k => exact conclude_answers s _

/-- PC after an instruction's own effect (R29, R82). -/
theorem ExecEffect.pc_cases {i : Instr} {s t : State} (h : ExecEffect s i t) :
    (∃ x, i = .jumpIfANonzero x ∧ s.a ≠ 0 ∧ t.pc = x) ∨
    ((∀ x, i = .jumpIfANonzero x → s.a = 0) ∧ t.pc = s.pc + 2) := by
  cases h with
  | jumpTaken x ha => exact .inl ⟨x, rfl, ha, rfl⟩
  | jumpNotTaken x ha => exact .inr ⟨fun _ _ => ha, rfl⟩
  | _ => right; simp

/-- OUT after an instruction's own effect: emit appends a digit (R36, R103). -/
theorem ExecEffect.out_cases {i : Instr} {s t : State} (h : ExecEffect s i t) :
    t.out = s.out ∨ ∃ k v, i = .emit k ∧ comboValue s k = .ok v ∧ t.out = s.out ++ [mod8 v] := by
  cases h with
  | emit k v hv hf => exact .inr ⟨k, v, rfl, hv, rfl⟩
  | _ => left; simp

/-! ### What a step answers -/

/-- The oracle stop changes STATUS alone, to a final value (R108, R109, R111). -/
theorem oracleStop_ends (s : State) :
    (oracleStop s).status.final = true ∧ oracleStop s = { s with status := (oracleStop s).status } := by
  obtain ⟨-, e⟩ | ⟨d, -, e⟩ | ⟨-, e⟩ := oracleStop_cases s <;> rw [e] <;> exact ⟨rfl, rfl⟩

/-- A step executes the fetched instruction's own effect and leaves the engine Running, or it ends the run, and then
changes STATUS alone. -/
theorem step_executes_or_ends {s t : State} (h : step s = .next t) :
    (t.status = .running ∧ ∃ i, fetch s = .ok i ∧ ExecEffect s i t) ∨
    (t.status.final = true ∧ t = { s with status := t.status }) := by
  obtain ⟨hr, hc⟩ := step_cases h
  cases hc with
  | oracleStop i hf hm hj => exact .inr (oracleStop_ends s)
  | exec i t hf hm he =>
    obtain heff | ⟨code, -, rfl⟩ := exec_cases he
    · exact .inl ⟨heff.keeps_status.trans hr, i, hf, heff⟩
    · exact .inr ⟨rfl, rfl⟩
  | _ => exact .inr ⟨rfl, rfl⟩

/-- A Running engine always has a next state (R34). -/
theorem step_answers {s : State} (h : s.status = .running) : ∃ t, step s = .next t := by
  unfold step cycle
  rw [if_pos h]
  split
  · exact ⟨_, rfl⟩
  · split
    · exact ⟨_, rfl⟩
    · unfold runFetched
      split
      · exact ⟨_, rfl⟩
      · exact exec_answers _ s

theorem ne_running_of_final {u : Status} (h : u.final = true) : u ≠ .running := by
  rintro rfl; cases h

/-- Settles O35: a step that leaves the engine Running has executed the fetched instruction's own effect. -/
theorem pcAdvancesByTwoUnlessJumpTaken : Obligations.PcAdvancesByTwoUnlessJumpTaken := by
  intro s t i hf hs ht
  obtain ⟨-, j, hj, heff⟩ | ⟨hfin, -⟩ := step_executes_or_ends hs
  · obtain rfl : i = j := by simpa using hf.symm.trans hj
    obtain ⟨x, rfl, ha, hpc⟩ | ⟨hnot, hpc⟩ := heff.pc_cases
    · exact ⟨fun y hy _ => by cases hy; exact hpc, fun hall => absurd (hall x rfl) ha⟩
    · exact ⟨fun y hy ha => absurd (hnot y hy) ha, fun _ => hpc⟩
  · exact absurd ht (ne_running_of_final hfin)

/-- Settles O36: a step is taken from a Running engine alone, and one always can be. -/
theorem statusLifecycle : Obligations.StatusLifecycle := by
  refine ⟨fun cfg => rfl, fun s => ⟨step_answers, ?_⟩, fun s t hs => ?_, fun s hfin k => ?_, fun s t q hq => ?_⟩
  · rintro ⟨t, hs⟩
    exact (step_cases hs).1
  · exact (step_executes_or_ends hs).imp And.left And.left
  · exact runSteps_of_not_running (ne_running_of_final hfin) k
  · obtain ⟨hnot, -, rfl⟩ := start_ok_iff.1 hq
    exact ⟨hnot, rfl⟩

/-! ### OUT: written by emit, read by the oracle stop -/

/-- `s` with another output sequence. -/
def State.withOut (s : State) (o : List Digit) : State := { s with out := o }

@[simp] theorem State.withOut_a (s : State) (o : List Digit) : (s.withOut o).a = s.a := rfl
@[simp] theorem State.withOut_b (s : State) (o : List Digit) : (s.withOut o).b = s.b := rfl
@[simp] theorem State.withOut_c (s : State) (o : List Digit) : (s.withOut o).c = s.c := rfl
@[simp] theorem State.readReg_withOut (s : State) (o : List Digit) (r : Reg) :
    (s.withOut o).readReg r = s.readReg r := by cases r <;> rfl
@[simp] theorem State.withOut_setPc (s : State) (o : List Digit) (x : Nat) :
    (s.withOut o).setPc x = (s.setPc x).withOut o := rfl
@[simp] theorem State.withOut_advance (s : State) (o : List Digit) : (s.withOut o).advance = s.advance.withOut o := rfl
@[simp] theorem State.withOut_writeReg (s : State) (o : List Digit) (r : Reg) (v : Int) :
    (s.withOut o).writeReg r v = (s.writeReg r v).withOut o := by cases r <;> rfl
theorem State.withOut_appendOut (s : State) (o : List Digit) (d : Digit) :
    (s.withOut o).appendOut d = (s.appendOut d).withOut (o ++ [d]) := rfl

/-- An operand's value does not depend on OUT. -/
@[simp] theorem comboValue_withOut (s : State) (o : List Digit) (k : Combo) :
    comboValue (s.withOut o) k = comboValue s k := by cases k <;> simp [comboValue]

/-- The digits in OUT do not matter to an own effect, but for fullness: over other digits the instruction has the same
effect, and appends the same digits. -/
theorem ExecEffect.withOut {i : Instr} {s t : State} {o : List Digit} (h : ExecEffect s i t)
    (hfull : s.outFull = (s.withOut o).outFull) :
    ExecEffect (s.withOut o) i (t.withOut (o ++ t.out.drop s.out.length)) := by
  cases h with
  | shiftA k n hn h0 => simpa using ExecEffect.shiftA (s := s.withOut o) k n (by simpa using hn) h0
  | xorBLiteral x => simpa using ExecEffect.xorBLiteral (s := s.withOut o) x
  | modB k v hv => simpa using ExecEffect.modB (s := s.withOut o) k v (by simpa using hv)
  | jumpTaken x ha => simpa using ExecEffect.jumpTaken (s := s.withOut o) x ha
  | jumpNotTaken x ha => simpa using ExecEffect.jumpNotTaken (s := s.withOut o) x ha
  | xorBC x => simpa using ExecEffect.xorBC (s := s.withOut o) x
  | emit k v hv hf =>
    simpa [State.withOut_appendOut] using
      ExecEffect.emit (s := s.withOut o) k v (by simpa using hv) (hfull.symm.trans hf)
  | shiftB k n hn h0 => simpa using ExecEffect.shiftB (s := s.withOut o) k n (by simpa using hn) h0
  | shiftC k n hn h0 => simpa using ExecEffect.shiftC (s := s.withOut o) k n (by simpa using hn) h0

/-- Nor do they matter to a fault. -/
theorem ExecFault.withOut {i : Instr} {s : State} {code : FaultCode} {o : List Digit} (h : ExecFault i s code)
    (hfull : s.outFull = (s.withOut o).outFull) : ExecFault i (s.withOut o) code := by
  cases h with
  | reserved hi => exact .reserved hi
  | negative r hr hi => exact .negative r (by simpa using hr) hi
  | full k v hi hv hf => exact .full k v hi (by simpa using hv) (hfull.symm.trans hf)

/-- An instruction over other digits in OUT, as many of them as matter to fullness: its outcome is the same but for
those digits (R36, R103). -/
theorem exec_withOut {i : Instr} {s t : State} {o : List Digit} (h : exec i s = .next t)
    (hfull : s.outFull = (s.withOut o).outFull) :
    exec i (s.withOut o) = .next (t.withOut (o ++ t.out.drop s.out.length)) := by
  obtain heff | ⟨code, hfault, rfl⟩ := exec_cases h
  · exact (heff.withOut hfull).exec_eq
  · rw [(hfault.withOut hfull).exec_eq]
    simp [State.raise, State.withOut]

/-- What a step does to OUT: nothing, or it is an emit that appends one digit (R36). -/
theorem step_out_cases {s t : State} (h : step s = .next t) :
    t.out = s.out ∨ ∃ k v, fetch s = .ok (.emit k) ∧ comboValue s k = .ok v ∧ t.out = s.out ++ [mod8 v] := by
  obtain ⟨-, i, hf, heff⟩ | ⟨-, e⟩ := step_executes_or_ends h
  · obtain hout | ⟨k, v, rfl, hv, hout⟩ := heff.out_cases
    · exact .inl hout
    · exact .inr ⟨k, v, hf, hv, hout⟩
  · exact .inl (by rw [e])

theorem oracleStop_of_nil {s : State} (h : s.out = []) : oracleStop s = s.raise .oracleNoEmit := by
  simp [oracleStop, h]

theorem oracleStop_of_singleton {s : State} {d : Digit} (h : s.out = [d]) : oracleStop s = s.finishOracle d := by
  simp [oracleStop, h]

theorem oracleStop_of_two_le {s : State} (h : 2 ≤ s.out.length) : oracleStop s = s.raise .oracleMultiEmit := by
  obtain ⟨h0, -⟩ | ⟨d, h1, -⟩ | ⟨-, e⟩ := oracleStop_cases s
  · simp [h0] at h
  · simp [h1] at h
  · exact e

/-- The oracle stop reads of OUT its length and its first digit (R36, R108). -/
theorem oracleStop_status_congr {s t : State} (hlen : t.out.length = s.out.length) (hhead : t.out.head? = s.out.head?) :
    (oracleStop t).status = (oracleStop s).status := by
  obtain ⟨hs, e⟩ | ⟨d, hs, e⟩ | ⟨hs, e⟩ := oracleStop_cases s
  · rw [e, oracleStop_of_nil (by simpa [hs] using hlen), State.raise_status, State.raise_status]
  · obtain ⟨d', ht⟩ := List.length_eq_one_iff.1 (hlen.trans (by rw [hs]; rfl))
    obtain rfl : d' = d := by simpa [hs, ht] using hhead
    rw [e, oracleStop_of_singleton ht, State.finishOracle_status, State.finishOracle_status]
  · rw [e, oracleStop_of_two_le (hlen ▸ hs), State.raise_status, State.raise_status]

/-- Settles O37, clause by clause: Start, the step, an instruction over other digits, the oracle stop. -/
theorem outputIsAppendOnlyByEmit : Obligations.OutputIsAppendOnlyByEmit := by
  refine ⟨fun s t q hq => ?_, fun s t => step_out_cases, fun s t i o hfull h => exec_withOut h hfull,
    fun s o hlen hhead => oracleStop_status_congr hlen hhead⟩
  obtain ⟨-, -, rfl⟩ := start_ok_iff.1 hq
  rfl

/-! ### MODE and PROG: written by Start -/

/-- No number of steps changes MODE, PROG or the parameters. -/
theorem runSteps_keeps_setup (s : State) (k : Nat) :
    (runSteps k s).mode = s.mode ∧ (runSteps k s).prog = s.prog ∧ (runSteps k s).config = s.config := by
  refine runSteps_keeps (P := fun u => u.mode = s.mode ∧ u.prog = s.prog ∧ u.config = s.config) ?_ k s ⟨rfl, rfl, rfl⟩
  rintro u t ⟨hm, hp, hc⟩ hs
  obtain ⟨hm', hp', hc'⟩ := step_keeps_setup hs
  exact ⟨hm'.trans hm, hp'.trans hp, hc'.trans hc⟩

/-- The store an accepted Start writes holds the integers the host gave (R38). -/
theorem started_prog_eq {cfg : Config} {q : StartArgs} (h : validate cfg q = none) :
    (started cfg q).prog.map Int.ofNat = q.prog := by
  obtain ⟨-, -, hslots, -⟩ := validate_none_iff.1 h
  calc (q.prog.map Int.toNat).map Int.ofNat
      _ = q.prog.map (Int.ofNat ∘ Int.toNat) := List.map_map
      _ = q.prog.map id := List.map_congr_left fun v hv => Int.toNat_of_nonneg (hslots v hv).1
      _ = q.prog := List.map_id q.prog

/-- A store in its one form has an even length and slots in 0..7 (R38, R45). -/
theorem Memory.wf_iff {m : Memory} : m.wf = true ↔ m.length % 2 = 0 ∧ ∀ v ∈ m, v ≤ 7 := by
  simp [Memory.wf]

/-- Settles O39: what Start writes, and the induction over runs. -/
theorem modeAndProgramAreFixedDuringARun : Obligations.ModeAndProgramAreFixedDuringARun := by
  intro s t q hq
  obtain ⟨-, hv, rfl⟩ := start_ok_iff.1 hq
  obtain ⟨heven, hslots⟩ := Memory.wf_iff.1 (started_prog_wf hv)
  exact ⟨rfl, started_prog_eq hv, heven, hslots, runSteps_keeps_setup (started s.config q)⟩

/-! ### The fields of STATUSW -/

open BitVec in
/-- A status word put together from its fields, the reserved bits 0, gives them back (R35): each is reached by dropping
the fields below it. -/
theorem statusw_fields_of_append (cause : BitVec 4) (mode : BitVec 1) (digit state : BitVec 3) :
    let w : StatusWord := 0#4 ++ cause ++ 0#1 ++ mode ++ digit ++ state
    w.extractLsb' 0 3 = state ∧ w.extractLsb' 3 3 = digit ∧ w.extractLsb' 6 1 = mode ∧ w.extractLsb' 7 1 = 0#1 ∧
      w.extractLsb' 8 4 = cause ∧ w.extractLsb' 12 4 = 0#4 := by
  refine ⟨extractLsb'_append_eq_right, ?_, ?_, ?_, ?_, ?_⟩
  · exact (extractLsb'_append_eq_of_le (by decide)).trans extractLsb'_append_eq_right
  · iterate 2 refine (extractLsb'_append_eq_of_le (by decide)).trans ?_
    exact extractLsb'_append_eq_right
  · iterate 3 refine (extractLsb'_append_eq_of_le (by decide)).trans ?_
    exact extractLsb'_append_eq_right
  · iterate 4 refine (extractLsb'_append_eq_of_le (by decide)).trans ?_
    exact extractLsb'_append_eq_right
  · iterate 4 refine (extractLsb'_append_eq_of_le (by decide)).trans ?_
    exact extractLsb'_append_eq_left

/-- MODE reads 1 exactly in oracle mode when STATUS is not Idle (R35). -/
theorem State.modeField_eq (s : State) :
    s.modeField = if s.status ≠ .idle ∧ s.mode = .oracle then 1#1 else 0#1 := by
  unfold State.modeField
  cases s.status <;> cases s.mode <;> rfl

/-- Settles O57: the fields put together, and what each reads for every kind of STATUS. -/
theorem statusWordFields : Obligations.StatusWordFields := by
  intro s
  obtain ⟨hstate, hdigit, hmode, h7, hcause, h12⟩ :=
    statusw_fields_of_append s.status.causeField s.modeField s.status.digitField s.status.stateField
  refine ⟨hstate.trans ?_, hdigit.trans ?_, hmode.trans s.modeField_eq, h7, hcause.trans ?_, h12⟩
  · cases s.status <;> rfl
  · cases s.status with
    | oracleDone d => exact (BitVec.ofNat_finVal (w := 3) d).symm
    | _ => rfl
  · cases s.status <;> rfl

end Sys2Proof.Machine

/-! ## The memory family (`20_memory.md`): the pair a fetch reads -/

namespace Sys2Proof

/-! ### What a decoded pair is -/

theorem decodeCombo_map_ok {x : Nat} {f : Combo → Instr} {i : Instr} (h : (decodeCombo x).map f = .ok i) :
    ∃ k, k.wf = true ∧ k.field = x ∧ f k = i := by
  cases hk : decodeCombo x with
  | ok k =>
    obtain ⟨hwf, hfield, -⟩ := decodeCombo_ok hk
    exact ⟨k, hwf, hfield, Except.ok.inj (hk ▸ h)⟩
  | error e => rw [hk] at h; cases h

theorem decodeLiteral_map_ok {x : Nat} {f : Nat → Instr} {i : Instr} (h : (decodeLiteral x).map f = .ok i) :
    literalWf x = true ∧ f x = i := by
  cases hy : decodeLiteral x with
  | ok y =>
    obtain ⟨hle, rfl⟩ := decodeLiteral_ok_iff.1 hy
    exact ⟨decide_eq_true hle, Except.ok.inj (hy ▸ h)⟩
  | error e => rw [hy] at h; cases h

/-- A decoded instruction is well-formed, and its two slots are the pair it was decoded from (R48, R60): opcodes 0, 2, 5,
6 and 7 have a combo operand, 1, 3 and 4 a literal one. -/
theorem decode_ok {o x : Nat} {i : Instr} (h : decode o x = .ok i) : i.wf = true ∧ i.opcode = o ∧ i.operand = x := by
  match o, h with
  | 0, h | 2, h | 5, h | 6, h | 7, h =>
    obtain ⟨k, hwf, hfield, rfl⟩ := decodeCombo_map_ok h
    exact ⟨hwf, rfl, hfield⟩
  | 1, h | 3, h | 4, h =>
    obtain ⟨hwf, rfl⟩ := decodeLiteral_map_ok h
    exact ⟨hwf, rfl, rfl⟩
  | _ + 8, h => cases h

namespace Machine

/-! ### The fetch at a valid PC and at the end of PROG -/

/-- What a fetch answers is the pair at PC, whatever PC's parity (R47, R50). -/
theorem fetch_ok_slots {s : State} {i : Instr} (h : fetch s = .ok i) :
    s.prog.slot? s.pc = some i.opcode ∧ s.prog.slot? (s.pc + 1) = some i.operand := by
  obtain ⟨o, x, ho, hx, hd⟩ := fetch_ok_iff.1 h
  obtain ⟨-, rfl, rfl⟩ := decode_ok hd
  exact ⟨ho, hx⟩

/-- Without an operand slot the fetch faults, whatever the opcode slot holds. -/
theorem fetch_of_no_operand {s : State} (h : s.prog.length ≤ s.pc + 1) : fetch s = .error .operandBeyondEnd := by
  cases hf : fetch s with
  | ok i =>
    obtain ⟨-, hx⟩ := fetch_ok_slots hf
    exact absurd (slot?_eq_some hx) (by omega)
  | error code =>
    obtain ⟨rfl, -⟩ | ⟨-, o, x, -, hx, -⟩ := fetch_error hf
    · rfl
    · exact absurd (slot?_eq_some hx) (by omega)

/-- The first check of a pass: PC at or past the end of PROG (R77). -/
theorem step_of_past_end {s : State} (hr : s.status = .running) (hl : s.prog.length ≤ s.pc) :
    step s = .next (passEnd s) := by
  rw [step, cycle, if_pos hr, if_pos hl]

/-- The second check of a pass: inside PROG, the fetch's fault is the step's. -/
theorem step_of_fetch_error {s : State} {code : FaultCode} (hr : s.status = .running) (hl : s.pc < s.prog.length)
    (hf : fetch s = .error code) : step s = .next (s.raise code) := by
  rw [step, cycle, if_pos hr, if_neg (by omega), hf]

theorem passEnd_of_run {s : State} (hm : s.mode = .run) : passEnd s = s.halt := by
  rw [passEnd, hm]

/-- Settles O34, clause by clause: the pair decoded, the pair answered, PC past the end, PC at the last slot. -/
theorem fetchReadsThePairAtPc : Obligations.FetchReadsThePairAtPc := by
  refine fun s => ⟨fun o x i _ ho hx hd => fetch_ok_iff.2 ⟨o, x, ho, hx, hd⟩, fun i hf => ?_, fun hr hm hl => ?_,
    fun hr hl => ?_⟩
  · obtain ⟨ho, hx⟩ := fetch_ok_slots hf
    exact ⟨slot?_eq_some hx, ho, hx⟩
  · rw [step_of_past_end hr hl, passEnd_of_run hm, State.halt]
  · rw [step_of_fetch_error hr (by omega) (fetch_of_no_operand hl.ge), State.raise]

end Machine

end Sys2Proof

/-! ## The encoding family (`30_encoding.md`): the packed word, the opcode map and the reserved combo operand -/

namespace Sys2Proof

/-! ### The packed word -/

/-- A table word decodes as the pair of slots its low bits hold (R61). -/
theorem decodeTableWord_eq_some_iff {n w : Nat} {i : Instr} :
    decodeTableWord n w = some i ↔ decode (w % 2 ^ n / 8) (w % 2 ^ n % 8) = .ok i := by
  unfold decodeTableWord
  cases decode (w % 2 ^ n / 8) (w % 2 ^ n % 8) <;> simp

/-- The packed word of a pair decodes as the pair does, read in 6 bits or more. -/
theorem decodeTableWord_packed_iff {o x n : Nat} {i : Instr} (ho : o ≤ 7) (hx : x ≤ 7) (hn : 6 ≤ n) :
    decodeTableWord n (o * 8 + x) = some i ↔ decode o x = .ok i := by
  obtain ⟨hdiv, hmod⟩ := packed_div_mod ho hx hn
  rw [decodeTableWord_eq_some_iff, hdiv, hmod]

/-- Bits 5 to 3 of a packed word are the opcode slot. -/
theorem packed_extract_opcode (o : Nat) {x : Nat} (hx : x ≤ 7) :
    (BitVec.ofNat 6 (o * 8 + x)).extractLsb' 3 3 = BitVec.ofNat 3 o := by
  apply BitVec.eq_of_toNat_eq
  simp only [BitVec.extractLsb'_toNat, BitVec.toNat_ofNat, Nat.shiftRight_eq_div_pow]
  omega

/-- Bits 2 to 0 of a packed word are the operand slot. -/
theorem packed_extract_operand (o x : Nat) :
    (BitVec.ofNat 6 (o * 8 + x)).extractLsb' 0 3 = BitVec.ofNat 3 x := by
  apply BitVec.eq_of_toNat_eq
  simp only [BitVec.extractLsb'_toNat, BitVec.toNat_ofNat, Nat.shiftRight_zero]
  omega

/-- Settles O4: the two bit fields, and the pair decoded. -/
theorem packedWordIsNotationForThePair : Obligations.PackedWordIsNotationForThePair := fun o x ho hx =>
  ⟨packed_extract_opcode o hx, packed_extract_operand o x, fun _ => decodeTableWord_packed_iff ho hx le_rfl⟩

/-! ### The opcode map -/

/-- Every pair of slots in 0..7 is an instruction (R72). -/
theorem decode_total {o x : Nat} (ho : o ≤ 7) (hx : x ≤ 7) : ∃ i, decode o x = .ok i := by
  cases h : decode o x with
  | ok i => exact ⟨i, rfl⟩
  | error e => exact absurd (decode_error h) (by omega)

/-- The row of the opcode map that an instruction's opcode numbers (R66). -/
def Instr.row (i : Instr) : OpcodeRow := ⟨i.mnemonic, i.kind, i.opcode * 8, 0b111000⟩

theorem opcodeTable_opcode (i : Instr) : opcodeTable[i.opcode]? = some i.row := by
  cases i <;> rfl

/-- The mask of the opcode map keeps the opcode field and clears the operand field. -/
theorem packedWord_and_mask {i : Instr} (h : i.wf = true) : packedWord i &&& 0b111000 = i.opcode * 8 := by
  have hfield : ∀ o ≤ 7, ∀ x ≤ 7, (o * 8 + x) &&& 0b111000 = o * 8 := by decide
  exact hfield _ (opcode_le i) _ (operand_le h)

/-- Every row has the mask of the opcode field, so a word's rows are those whose pattern is its opcode field. -/
theorem rowsOf_eq_filter_pattern (w : Nat) :
    rowsOf w = opcodeTable.filter fun r => w &&& 0b111000 == r.pattern := by
  have hmask : ∀ r ∈ opcodeTable, r.mask = 0b111000 := by decide
  exact List.filter_congr fun r hr => by rw [hmask r hr]

/-- The packed word of an instruction belongs to the instruction's row alone. -/
theorem rowsOf_packedWord {i : Instr} (h : i.wf = true) : rowsOf (packedWord i) = [i.row] := by
  rw [rowsOf_eq_filter_pattern, packedWord_and_mask h]
  cases i <;> rfl

/-- Settles O3: the pair of a word decodes to an instruction, whose row is the word's only one. -/
theorem opcodeMapIsComplete : Obligations.OpcodeMapIsComplete := by
  refine ⟨rfl, fun o ho x hx => ?_⟩
  obtain ⟨i, hi⟩ := decode_total ho hx
  have hword := (decodeTableWord_packed_iff ho hx le_rfl).2 hi
  obtain ⟨hwf, rfl, rfl⟩ := decode_ok hi
  exact ⟨i, i.row, hword, opcodeTable_opcode i, rowsOf_packedWord hwf, rfl, rfl, rfl⟩

namespace Machine

/-! ### The reserved combo operand -/

/-- The validation of a program whose slots are all in 0..7 looks at its length and at the register values (R140, R141). -/
theorem validate_of_slots_in_range {cfg : Config} {q : StartArgs} (h : ∀ v ∈ q.prog, 0 ≤ v ∧ v ≤ 7) :
    validate cfg q =
      if q.prog.length % 2 = 1 then some .oddLength
      else if cfg.progMax < q.prog.length then some .progTooLong
      else if !(fitsRegister cfg q.a0 && fitsRegister cfg q.b0 && fitsRegister cfg q.c0) then some .regRange
      else none := by
  have hall : q.prog.all (fun v => decide (0 ≤ v) && decide (v ≤ 7)) = true := by
    simpa [List.all_eq_true] using h
  rw [validate, hall]
  rfl

/-- Settles O8: the five encodings, the fault of each when executed, and the validation over other slots in range. -/
theorem reservedCombosFaultOnlyWhenExecuted : Obligations.ReservedCombosFaultOnlyWhenExecuted := by
  refine ⟨rfl, rfl, rfl, rfl, rfl, fun s i hi => ?_, fun cfg q p hlen hp hq => ?_⟩
  · exact (ExecFault.reserved hi).exec_eq
  · rw [validate_of_slots_in_range (q := { q with prog := p }) hp, validate_of_slots_in_range hq, hlen]

end Machine

end Sys2Proof

/-! ## The cycle family (`40_cycle.md`): the integer primitives, the operands and the checks of a step -/

namespace Sys2Proof.Machine

/-! ### The shift: floor division by a power of two -/

/-- The shift is adjoint to the multiplication by `2^n`: that makes it the greatest quotient (R83). -/
theorem le_sar_iff {m v n : Int} : m ≤ sar v n ↔ m * 2 ^ n.toNat ≤ v := by
  rw [sar_eq_div, Int.le_ediv_iff_mul_le (by positivity)]
  push_cast
  rfl

/-- The shift moves the two's-complement bits down: of a negative value, the bits of its complement. -/
theorem testBit_sar (v n : Int) (i : Nat) : (sar v n).testBit i = v.testBit (i + n.toNat) := by
  cases v with
  | ofNat m =>
    calc (m >>> n.toNat).testBit i
      _ = m.testBit (i + n.toNat) := by rw [Nat.testBit_shiftRight, Nat.add_comm]
  | negSucc m =>
    calc !((m >>> n.toNat).testBit i)
      _ = !(m.testBit (i + n.toNat)) := by rw [Nat.testBit_shiftRight, Nat.add_comm]

/-- Of a value shifted by its width or more only the sign is left (R83). -/
theorem sar_of_width_le {v n : Int} (hlo : -(2 ^ n.toNat) ≤ v) (hhi : v < 2 ^ n.toNat) :
    sar v n = if v < 0 then -1 else 0 := by
  obtain ⟨hpos, hneg⟩ := sar_between v n
  split
  case isTrue hv =>
    have hge : -1 ≤ sar v n := le_sar_iff.2 (by simpa using hlo)
    exact le_antisymm (hneg hv).2 hge
  case isFalse hv =>
    have hlt : ¬ 1 ≤ sar v n := fun h => absurd (le_sar_iff.1 h) (by simpa using hhi)
    have hge := (hpos (not_lt.1 hv)).1
    omega

/-- Settles O9: the adjunction gives the greatest quotient and the saturation, and a negative register faults. -/
theorem shiftIsFloorOfDivision : Obligations.ShiftIsFloorOfDivision := by
  refine ⟨fun v n _ => ⟨le_sar_iff.1 le_rfl, fun m => le_sar_iff.2, testBit_sar v n, sar_of_width_le⟩, fun v => ?_,
    fun s r hr i hi => ?_⟩
  · exact Int.shiftRight_zero v
  · exact (ExecFault.negative r hr hi).exec_eq

/-! ### Modulo 8: the low three bits -/

theorem mod8_natCast (n : Nat) : (mod8 (n : Int)).val = n % 8 := by
  have h := mod8_val (n : Int)
  omega

/-- Of a negative value `~n`, the low three bits are those of `n` complemented (R84). -/
theorem mod8_negSucc (n : Nat) : (mod8 (Int.negSucc n)).val = 2 ^ 3 - (n % 8 + 1) := by
  have h := mod8_val (Int.negSucc n)
  omega

theorem testBit_mod_eight (n : Nat) {i : Nat} (hi : i < 3) : (n % 8).testBit i = n.testBit i :=
  (Nat.testBit_mod_two_pow n 3 i).trans (by simp [hi])

theorem testBit_mod8 (v : Int) {i : Nat} (hi : i < 3) : (mod8 v).val.testBit i = v.testBit i := by
  cases v with
  | ofNat n =>
    calc (mod8 n).val.testBit i
      _ = (n % 8).testBit i := by rw [mod8_natCast]
      _ = n.testBit i := testBit_mod_eight n hi
  | negSucc n =>
    have hlt : n % 8 < 2 ^ 3 := by omega
    calc (mod8 (Int.negSucc n)).val.testBit i
      _ = (2 ^ 3 - (n % 8 + 1)).testBit i := by rw [mod8_negSucc]
      _ = !((n % 8).testBit i) := by rw [Nat.testBit_two_pow_sub_succ hlt, decide_eq_true hi, Bool.true_and]
      _ = !(n.testBit i) := by rw [testBit_mod_eight n hi]

/-- Settles O10: what `mod8` keeps is a remainder, and remainders modulo 8 in 0..7 are unique. -/
theorem moduloEightIsEuclidean : Obligations.ModuloEightIsEuclidean := by
  refine ⟨fun v => ?_, mod8_natCast, rfl, rfl, rfl⟩
  have h := mod8_val v
  exact ⟨by omega, fun r h0 h7 hdvd => by omega, fun i => testBit_mod8 v⟩

/-! ### The exclusive or -/

/-- The model's exclusive or is the one of Mathlib's integer bits. -/
theorem xorInt_eq_xor (v w : Int) : xorInt v w = Int.xor v w := by
  cases v <;> cases w <;> rfl

/-- Settles O11: bitwise by Mathlib's law, and the identities by the complement `-n - 1`, which is `Int.negSucc n`. -/
theorem xorIsBitwiseOnTwosComplement : Obligations.XorIsBitwiseOnTwosComplement := by
  refine ⟨fun v w i => ?_, fun n m => ?_, xorInt_neg_iff, rfl, rfl, rfl⟩
  · rw [xorInt_eq_xor]
    exact Int.testBit_lxor v w i
  · have hcompl : ∀ k : Nat, -(k : Int) - 1 = Int.negSucc k := fun k => by omega
    simp only [hcompl]
    exact ⟨rfl, rfl, rfl, rfl⟩

/-! ### Operands -/

theorem decodeCombo_of_le_three {x : Nat} (h : x ≤ 3) : decodeCombo x = .ok (.lit x) :=
  decodeCombo_field (k := .lit x) (decide_eq_true h)

/-- Settles O6: each field decodes to the combo operand whose value R79 gives. -/
theorem comboOperandValue : Obligations.ComboOperandValue := fun _ =>
  ⟨fun x h => ⟨.lit x, decodeCombo_of_le_three h, rfl⟩, ⟨.reg .A, rfl, rfl⟩, ⟨.reg .B, rfl, rfl⟩,
    ⟨.reg .C, rfl, rfl⟩, ⟨.reserved, rfl, rfl⟩⟩

/-- An instruction without a combo operand has its own effect in every state (R80, R97). -/
theorem effect_of_kind_ne_combo {i : Instr} (s : State) (h : i.kind ≠ .combo) : ∃ t, ExecEffect s i t := by
  cases i with
  | xorBLiteral x => exact ⟨_, .xorBLiteral x⟩
  | jumpIfANonzero x =>
    by_cases ha : s.a = 0
    · exact ⟨_, .jumpNotTaken x ha⟩
    · exact ⟨_, .jumpTaken x ha⟩
  | xorBC x => exact ⟨_, .xorBC x⟩
  | _ => exact absurd rfl h

/-- Settles O7: the three instructions have no combo operand, and an own effect keeps STATUS. -/
theorem literalOperandsNeverFault : Obligations.LiteralOperandsNeverFault := by
  refine ⟨fun x hx => ⟨decodeLiteral_ok_iff.2 ⟨hx, rfl⟩, rfl, Int.natCast_nonneg x, Int.ofNat_le.2 hx⟩, rfl, rfl, rfl,
    fun s x i hi => ?_⟩
  have hkind : i.kind ≠ .combo := by
    simp only [List.mem_cons, List.not_mem_nil, or_false] at hi
    obtain rfl | rfl | rfl := hi <;> simp [Instr.kind]
  obtain ⟨t, ht⟩ := effect_of_kind_ne_combo s hkind
  exact ⟨t, ht.exec_eq, ht.keeps_status⟩

/-! ### The checks of a step, in order -/

theorem passEnd_of_oracle {s : State} (hm : s.mode = .oracle) : passEnd s = s.raise .oracleNoJump := by
  rw [passEnd, hm]

/-- A pair with a slot above 7 is no instruction, and its fetch faults (R70). -/
theorem fetch_of_slot_gt {s : State} {o x : Nat} (ho : s.prog.slot? s.pc = some o)
    (hx : s.prog.slot? (s.pc + 1) = some x) (h : 7 < o ∨ 7 < x) : fetch s = .error .badSlotValue := by
  cases hf : fetch s with
  | ok i =>
    obtain ⟨o', x', ho', hx', hd⟩ := fetch_ok_iff.1 hf
    obtain ⟨rfl, rfl⟩ : o = o' ∧ x = x' := ⟨Option.some.inj (ho.symm.trans ho'), Option.some.inj (hx.symm.trans hx')⟩
    obtain ⟨hwf, rfl, rfl⟩ := decode_ok hd
    have hopcode := opcode_le i
    have hoperand := operand_le hwf
    omega
  | error code =>
    obtain ⟨-, hl⟩ | ⟨rfl, -⟩ := fetch_error hf
    · exact absurd (slot?_eq_some hx) (by omega)
    · rfl

/-- Past the fetch, a step is what a Running engine does with the instruction fetched. -/
theorem step_of_fetch_ok {s : State} {i : Instr} (hr : s.status = .running) (hf : fetch s = .ok i) :
    step s = runFetched i s := by
  have hl := slot?_eq_some (fetch_ok_slots hf).1
  rw [step, cycle, if_pos hr, if_neg (by omega), hf]

theorem isJump_iff_opcode {i : Instr} : i.isJump = true ↔ i.opcode = 3 := by
  cases i <;> simp [Instr.isJump, Instr.opcode]

/-- The last checks, where the pair decodes: the oracle stop at opcode 3, else the instruction (R81, R108). -/
theorem step_of_decoded {s : State} {o x : Nat} {i : Instr} (hr : s.status = .running)
    (ho : s.prog.slot? s.pc = some o) (hx : s.prog.slot? (s.pc + 1) = some x) (hd : decode o x = .ok i) :
    (s.mode = .oracle → o = 3 → step s = .next (oracleStop s)) ∧ (s.mode = .run ∨ o ≠ 3 → step s = exec i s) := by
  rw [step_of_fetch_ok hr (fetch_ok_iff.2 ⟨o, x, ho, hx, hd⟩)]
  obtain ⟨-, rfl, -⟩ := decode_ok hd
  refine ⟨fun hm h3 => runFetched_of_stop hm (isJump_iff_opcode.2 h3), fun hm => runFetched_of_exec ?_⟩
  exact hm.imp_right fun h3 => Bool.eq_false_iff.2 (mt isJump_iff_opcode.1 h3)

/-- Settles O29, check by check: STATUS, PC past the end by mode, the operand slot, the slots' values, the mode. -/
theorem stepChecksInOrder : Obligations.StepChecksInOrder := by
  refine fun s => ⟨fun hnot t hs => hnot (step_cases hs).1, fun hr => ⟨fun hl hm => ?_, fun hl hm => ?_, fun hl => ?_,
    fun hl => ?_⟩⟩
  · rw [step_of_past_end hr hl, passEnd_of_oracle hm, State.raise]
  · rw [step_of_past_end hr hl, passEnd_of_run hm, State.halt]
  · rw [step_of_fetch_error hr (by omega) (fetch_of_no_operand hl.ge), State.raise]
  · obtain ⟨o, ho⟩ := slot?_of_lt (m := s.prog) (i := s.pc) (by omega)
    obtain ⟨x, hx⟩ := slot?_of_lt hl
    refine ⟨o, x, ho, hx, fun hgt => ?_, fun hole hxle => ?_⟩
    · rw [step_of_fetch_error hr (by omega) (fetch_of_slot_gt ho hx hgt), State.raise]
    · obtain ⟨i, hd⟩ := decode_total hole hxle
      obtain ⟨hstop, hexec⟩ := step_of_decoded hr ho hx hd
      exact ⟨hstop, fun hm => ⟨i, hd, hexec hm⟩⟩

end Sys2Proof.Machine

/-! ## The shift family (`41_shift.md`): one law for the three destinations -/

namespace Sys2Proof

/-- The instruction that shifts A into `r`: the three of the family differ in the destination alone (R91 to R93). -/
def Instr.shift : Reg → Combo → Instr
  | .A => .shiftA
  | .B => .shiftB
  | .C => .shiftC

theorem mem_shifts_iff {i : Instr} {k : Combo} :
    i ∈ [Instr.shiftA k, .shiftB k, .shiftC k] ↔ ∃ r, i = .shift r k := by
  simp only [List.mem_cons, List.not_mem_nil, or_false]
  constructor
  · rintro (rfl | rfl | rfl)
    exacts [⟨.A, rfl⟩, ⟨.B, rfl⟩, ⟨.C, rfl⟩]
  · rintro ⟨r, rfl⟩
    cases r <;> simp [Instr.shift]

/-- The opcode of a shift reads its operand slot as a combo operand (R65, R66). -/
theorem decode_shift (r : Reg) {x : Nat} {k : Combo} (h : decodeCombo x = .ok k) :
    decode (Instr.shift r k).opcode x = .ok (.shift r k) := by
  cases r <;> exact congrArg (Except.map _) h

namespace Machine

/-! ### The shift's values -/

theorem sar_zero (v : Int) : sar v 0 = v := Int.shiftRight_zero v

/-- A shift by the width `w` of the value or more leaves only the sign (R91). -/
theorem sar_of_width_le_amount {v n : Int} {w : Nat} (hw : (w : Int) ≤ n) (hlo : -(2 ^ w) ≤ v) (hhi : v < 2 ^ w) :
    sar v n = if v < 0 then -1 else 0 := by
  have hpow : (2 : Int) ^ w ≤ 2 ^ n.toNat := pow_le_pow_right₀ (by decide) (by omega)
  exact sar_of_width_le ((neg_le_neg hpow).trans hlo) (hhi.trans_le hpow)

/-- A value shifted by itself is 0, being less than `2^v` (R91). -/
theorem sar_self {v : Int} (h : 0 ≤ v) : sar v v = 0 := by
  obtain ⟨m, rfl⟩ := Int.eq_ofNat_of_zero_le h
  have hhi : (m : Int) < 2 ^ m := by exact_mod_cast Nat.lt_two_pow_self
  have hlo : -(2 ^ m) ≤ (m : Int) := by omega
  rw [sar_of_width_le_amount le_rfl hlo hhi, if_neg (not_lt.2 h)]

/-! ### What a shift does -/

theorem exec_shift (r : Reg) (k : Combo) (s : State) : exec (.shift r k) s = s.conclude (shiftInto r k s) := by
  cases r <;> rfl

/-- With an amount that is not negative, the destination takes the shifted value of A and PC moves on. -/
theorem exec_shift_of_nonneg {s : State} {k : Combo} {n v : Int} (r : Reg) (hn : comboValue s k = .ok n) (h0 : 0 ≤ n)
    (hv : sar s.a n = v) : exec (.shift r k) s = .next (s.writeReg r v).advance := by
  rw [exec_shift, shiftInto_ok_iff.2 ⟨n, hn, h0, rfl⟩, hv, State.conclude]

/-- A negative combo value is a register's: a literal is not negative (R94). -/
theorem comboValue_negative {s : State} {k : Combo} {n : Int} (hn : comboValue s k = .ok n) (hneg : n < 0) :
    ∃ r, k = .reg r ∧ s.readReg r = n := by
  obtain ⟨m, -, rfl⟩ | ⟨r, hk, hr⟩ := comboValue_ok hn
  · omega
  · exact ⟨r, hk, hr.symm⟩

/-- With a negative amount, the shift faults and only STATUS changes (R94, R118). -/
theorem exec_shift_of_negative {s : State} {k : Combo} {n : Int} (r : Reg) (hn : comboValue s k = .ok n)
    (hneg : n < 0) : exec (.shift r k) s = .next (s.raise .negShift) := by
  obtain ⟨q, rfl, hq⟩ := comboValue_negative hn hneg
  rw [exec_shift, shiftInto_of_negative r (hq.trans_lt hneg), State.conclude]

/-- The reserved operand has no amount (R68). -/
theorem exec_shift_of_reserved (r : Reg) (s : State) :
    exec (.shift r .reserved) s = .next (s.raise .reservedCombo) := by
  cases r <;> rfl

/-- A shift of a Running engine that ends in NEG_SHIFT had a negative register as its amount (R94). -/
theorem exec_shift_negShift_inv {r : Reg} {k : Combo} {s t : State} (hrun : s.status = .running)
    (h : exec (.shift r k) s = .next t) (ht : t.status = .faulted .negShift) :
    t = s.raise .negShift ∧ ∃ q, k = .reg q ∧ s.readReg q < 0 := by
  rw [exec_shift] at h
  obtain hok | ⟨code, herr, rfl⟩ := conclude_next_iff.1 h
  · obtain ⟨n, -, -, rfl⟩ := shiftInto_ok_iff.1 hok
    simp [hrun] at ht
  · obtain ⟨-, rfl⟩ | ⟨rfl, hq⟩ := shiftInto_error herr
    · simp at ht
    · exact ⟨rfl, hq⟩

/-! ### The obligations -/

/-- Settles O13: the family's law at destination A, and the value of the shift in each corner case. -/
theorem shiftAWritesA : Obligations.ShiftAWritesA := by
  refine ⟨fun _ _ => decode_shift .A, fun s => ⟨fun k n hn h0 => ?effect, fun k n => ?fault, ?reserved, ?zero,
    fun ha => ?self, fun ha => ?selfFault, fun k n w hn hw hlo hhi => ?width, fun ha => ?round, fun ha => ?sample⟩⟩
  case effect => exact exec_shift_of_nonneg .A hn h0 rfl
  case fault => exact exec_shift_of_negative .A
  case reserved => exact exec_shift_of_reserved .A s
  case zero => exact exec_shift_of_nonneg .A rfl le_rfl (sar_zero s.a)
  case self => exact exec_shift_of_nonneg .A rfl ha (sar_self ha)
  case selfFault => exact exec_shift_of_negative .A rfl ha
  case width =>
    have h0 : 0 ≤ n := (Int.natCast_nonneg w).trans hw
    exact exec_shift_of_nonneg .A hn h0 (sar_of_width_le_amount hw hlo hhi)
  case round => exact exec_shift_of_nonneg (n := 1) .A rfl (by decide) (by rw [ha]; rfl)
  case sample => exact exec_shift_of_nonneg (n := 1) .A rfl (by decide) (by rw [ha]; rfl)

/-- Settles O16: the amount's origin, the family's fault, and the inversion of a shift that ends in it. -/
theorem negativeShiftAmountFaults : Obligations.NegativeShiftAmountFaults := by
  refine ⟨fun s k n hn hneg => ⟨comboValue_negative hn hneg, fun i hi => ?_⟩, fun s t k hrun i hi h ht => ?_⟩
  · obtain ⟨r, rfl⟩ := mem_shifts_iff.1 hi
    exact exec_shift_of_negative r hn hneg
  · obtain ⟨r, rfl⟩ := mem_shifts_iff.1 hi
    exact exec_shift_negShift_inv hrun h ht

/-- Settles O14: the family's law at destination B, by the old B, by A and by 0. -/
theorem shiftBWritesB : Obligations.ShiftBWritesB := by
  refine ⟨fun _ _ => decode_shift .B, fun s => ⟨fun k n hn h0 => ?effect, fun k n => ?fault, ?reserved,
    fun hb => ?byB, fun ha => ?byA, ?zero⟩⟩
  case effect => exact exec_shift_of_nonneg .B hn h0 rfl
  case fault => exact exec_shift_of_negative .B
  case reserved => exact exec_shift_of_reserved .B s
  case byB => exact exec_shift_of_nonneg .B rfl hb rfl
  case byA => exact exec_shift_of_nonneg .B rfl ha (sar_self ha)
  case zero => exact exec_shift_of_nonneg .B rfl le_rfl (sar_zero s.a)

/-- Settles O15: the family's law at destination C, by the old C among others. -/
theorem shiftCWritesC : Obligations.ShiftCWritesC := by
  refine ⟨fun _ _ => decode_shift .C, fun s => ⟨fun k n hn h0 => ?effect, fun k n => ?fault, ?reserved,
    fun hc => ?byC, fun ha hc => ?sample⟩⟩
  case effect => exact exec_shift_of_nonneg .C hn h0 rfl
  case fault => exact exec_shift_of_negative .C
  case reserved => exact exec_shift_of_reserved .C s
  case byC => exact exec_shift_of_nonneg .C rfl hc rfl
  case sample =>
    have hval : sar s.a s.c = 8 := by rw [ha, hc]; rfl
    exact exec_shift_of_nonneg .C rfl (by omega) hval

end Machine

end Sys2Proof

/-! ## The B-register family (`42_bitwise.md`): one write of B, by three values -/

namespace Sys2Proof

/-- A 3-bit slot is its own literal operand (R63). -/
theorem decodeLiteral_of_le {x : Nat} (h : x ≤ 7) : decodeLiteral x = .ok x := decodeLiteral_ok_iff.2 ⟨h, rfl⟩

namespace Machine

/-! ### The values of the operands and of the result -/

theorem testBit_xorInt (v w : Int) (i : Nat) : (xorInt v w).testBit i = (v.testBit i ^^ w.testBit i) := by
  rw [xorInt_eq_xor, Int.testBit_lxor]

theorem xorInt_zero (v : Int) : xorInt v 0 = v := by
  cases v with
  | ofNat n => exact congrArg Int.ofNat (Nat.xor_zero n)
  | negSucc n => exact congrArg Int.negSucc (Nat.xor_zero n)

theorem xorInt_self (v : Int) : xorInt v v = 0 := by
  cases v with
  | ofNat n => exact congrArg Int.ofNat (Nat.xor_self n)
  | negSucc n => exact congrArg Int.ofNat (Nat.xor_self n)

/-- A literal operand has no bit from 3 upward. -/
theorem testBit_literal {x i : Nat} (hx : x ≤ 7) (hi : 3 ≤ i) : (x : Int).testBit i = false := by
  have hpow : 2 ^ 3 ≤ 2 ^ i := Nat.pow_le_pow_right (by decide) hi
  exact Nat.testBit_lt_two_pow (by omega)

/-- The exclusive or with a literal changes the low three bits at most (R95). -/
theorem testBit_xorInt_literal (v : Int) {x i : Nat} (hx : x ≤ 7) (hi : 3 ≤ i) :
    (xorInt v x).testBit i = v.testBit i := by
  rw [testBit_xorInt, testBit_literal hx hi, Bool.xor_false]

/-- A number that is not negative leaves the sign to the other operand. -/
theorem xorInt_natCast_neg_iff (v : Int) (x : Nat) : xorInt v x < 0 ↔ v < 0 := by
  have h := xorInt_neg_iff v x
  omega

theorem mod8_of_le {x : Nat} (h : x ≤ 7) : (mod8 (x : Int)).val = x := by
  rw [mod8_natCast, Nat.mod_eq_of_lt (by omega)]

theorem comboValue_reg {s : State} {r : Reg} {v : Int} (h : s.readReg r = v) : comboValue s (.reg r) = .ok v :=
  congrArg Except.ok h

/-! ### What the family does -/

theorem exec_xorBLiteral {s : State} {x : Nat} {v : Int} (hv : xorInt s.b x = v) :
    exec (.xorBLiteral x) s = .next (s.writeReg .B v).advance := by
  rw [(ExecEffect.xorBLiteral x).exec_eq, hv]

theorem exec_xorBC {s : State} (x : Nat) {v : Int} (hv : xorInt s.b s.c = v) :
    exec (.xorBC x) s = .next (s.writeReg .B v).advance := by
  rw [(ExecEffect.xorBC x).exec_eq, hv]

/-- mod-B of an operand that has a value: B takes the digit `d` of that value (R96). -/
theorem exec_modB {s : State} {k : Combo} {v d : Int} (hv : comboValue s k = .ok v) (hd : ((mod8 v).val : Int) = d) :
    exec (.modB k) s = .next (s.writeReg .B d).advance := by
  rw [(ExecEffect.modB k v hv).exec_eq, hd]

/-- What mod-B writes is a digit, whatever the sign of its operand (R84, R96). -/
theorem exec_modB_range {s t : State} {k : Combo} {v : Int} (hv : comboValue s k = .ok v)
    (h : exec (.modB k) s = .next t) : 0 ≤ t.b ∧ t.b ≤ 7 := by
  obtain rfl : (s.writeReg .B ((mod8 v).val : Int)).advance = t :=
    Host.Outcome.next.inj ((exec_modB hv rfl).symm.trans h)
  rw [State.advance_b, State.writeReg_B_b, mod8_val]
  omega

/-! ### The obligations -/

/-- Settles O17: a literal has neither a bit above 2 nor a sign, so the bitwise law keeps those of B. -/
theorem xorBLiteralWritesB : Obligations.XorBLiteralWritesB := by
  refine ⟨fun x hx => ?encoding, fun s x => ?effect, fun s => ?zero, fun v x hx => ⟨fun i hi => ?bits, ?sign⟩, rfl, rfl⟩
  case encoding => exact congrArg (Except.map Instr.xorBLiteral) (decodeLiteral_of_le hx)
  case effect => exact exec_xorBLiteral rfl
  case zero => exact exec_xorBLiteral (xorInt_zero s.b)
  case bits => exact testBit_xorInt_literal v hx hi
  case sign => exact xorInt_natCast_neg_iff v x

/-- Settles O18: the digit that mod-B writes for each operand, and the fault of the reserved one. -/
theorem modBWritesB : Obligations.ModBWritesB := by
  refine ⟨fun x k hk => ?encoding, fun s k v hv => ?effect, fun s => ?reserved, fun s x hx => ?literal,
    fun s hc => ?minusOne, fun s hb => ?ownRegister, fun s hc => ?sample, fun s t k v => exec_modB_range⟩
  case encoding => exact congrArg (Except.map Instr.modB) hk
  case effect => exact exec_modB hv rfl
  case reserved => exact (ExecFault.reserved (by simp)).exec_eq
  case literal => exact exec_modB rfl (congrArg Nat.cast (mod8_of_le (by omega)))
  case minusOne => exact exec_modB (comboValue_reg (r := .C) hc) rfl
  case ownRegister => exact exec_modB (comboValue_reg (r := .B) hb) rfl
  case sample => exact exec_modB (comboValue_reg (r := .C) hc) rfl

/-- Settles O19: the effect names no operand, and a value is its own inverse under the exclusive or. -/
theorem xorBCWritesB : Obligations.XorBCWritesB := by
  refine ⟨fun x hx => ?encoding, fun s x => ?effect, fun s x hbc => ?equal, rfl, rfl, rfl⟩
  case encoding => exact congrArg (Except.map Instr.xorBC) (decodeLiteral_of_le hx)
  case effect => exact exec_xorBC x rfl
  case equal => exact exec_xorBC x (by rw [hbc, xorInt_self])

end Machine

end Sys2Proof

/-! ## The control family (`43_control.md`): the jump, and the halt past the end of PROG -/

namespace Sys2Proof.Machine

/-! ### A step past the end, and a step of run mode -/

/-- Run mode executes whatever is fetched, a jump too (R81). -/
theorem step_of_fetch_in_run {s : State} {i : Instr} (hr : s.status = .running) (hm : s.mode = .run)
    (hf : fetch s = .ok i) : step s = exec i s :=
  (step_of_fetch_ok hr hf).trans (runFetched_of_exec (.inl hm))

/-- Past the end, a run-mode step halts (R77, R102). -/
theorem step_halts_of_past_end {s : State} (hr : s.status = .running) (hm : s.mode = .run)
    (hl : s.prog.length ≤ s.pc) : step s = .next s.halt := by
  rw [step_of_past_end hr hl, passEnd_of_run hm]

/-- Past the end, the oracle has found no jump (R110). -/
theorem step_faults_of_past_end {s : State} (hr : s.status = .running) (hm : s.mode = .oracle)
    (hl : s.prog.length ≤ s.pc) : step s = .next (s.raise .oracleNoJump) := by
  rw [step_of_past_end hr hl, passEnd_of_oracle hm]

/-! ### The jump -/

theorem exec_jump_taken {s : State} (x : Nat) (ha : s.a ≠ 0) : exec (.jumpIfANonzero x) s = .next (s.setPc x) :=
  (ExecEffect.jumpTaken x ha).exec_eq

theorem exec_jump_not_taken {s : State} (x : Nat) (ha : s.a = 0) : exec (.jumpIfANonzero x) s = .next s.advance :=
  (ExecEffect.jumpNotTaken x ha).exec_eq

/-- A fetched jump is taken by run mode where A is not 0. -/
theorem step_takes_jump {s : State} {x : Nat} (hr : s.status = .running) (hm : s.mode = .run) (ha : s.a ≠ 0)
    (hf : fetch s = .ok (.jumpIfANonzero x)) : step s = .next (s.setPc x) :=
  (step_of_fetch_in_run hr hm hf).trans (exec_jump_taken x ha)

/-- A state that steps to itself is every later state of its run. -/
theorem runSteps_of_step_self {s : State} (h : step s = .next s) (k : Nat) : runSteps k s = s := by
  induction k with
  | zero => rfl
  | succ k ih => rw [runSteps_succ_of_next h, ih]

/-- A fetched jump ends the oracle's pass, PC still naming it (R108). -/
theorem step_stops_at_jump {s : State} {x : Nat} (hr : s.status = .running) (hm : s.mode = .oracle)
    (hf : fetch s = .ok (.jumpIfANonzero x)) : step s = .next (oracleStop s) :=
  (step_of_fetch_ok hr hf).trans (runFetched_of_stop hm rfl)

theorem oracleStop_pc (s : State) : (oracleStop s).pc = s.pc := by
  rw [(oracleStop_ends s).2]

/-! ### The halt -/

theorem oracleStop_not_halted (s : State) : (oracleStop s).status ≠ .halted := by
  obtain ⟨-, e⟩ | ⟨d, -, e⟩ | ⟨-, e⟩ := oracleStop_cases s <;> simp [e]

/-- An instruction's outcome has the STATUS it found or a fault, so a Running engine does not halt by it. -/
theorem exec_not_halted {i : Instr} {s t : State} (hr : s.status = .running) (h : exec i s = .next t) :
    t.status ≠ .halted := by
  obtain heff | ⟨code, -, rfl⟩ := exec_cases h
  · simp [heff.keeps_status, hr]
  · simp

/-- A step that halts began past the end in run mode: every other case of a step leaves another STATUS (R102). -/
theorem step_halted_inv {s t : State} (h : step s = .next t) (ht : t.status = .halted) :
    s.status = .running ∧ s.mode = .run ∧ s.prog.length ≤ s.pc ∧ t = s.halt := by
  obtain ⟨hr, hc⟩ := step_cases h
  cases hc with
  | halt hl hm => exact ⟨hr, hm, hl, rfl⟩
  | oracleStop i hf hm hj => exact absurd ht (oracleStop_not_halted s)
  | exec i t hf hm he => exact absurd ht (exec_not_halted hr he)
  | _ => simp at ht

/-- An executed instruction leaves PC past the end only by running up to L or by the target of a taken jump: the pair it
was fetched from lies inside PROG (R47, R102). -/
theorem ExecEffect.pc_past_end {i : Instr} {s t : State} (h : ExecEffect s i t) (hf : fetch s = .ok i)
    (hl : s.prog.length ≤ t.pc) : t.pc = s.prog.length ∨ (s.a ≠ 0 ∧ i = .jumpIfANonzero t.pc) := by
  have hpair : s.pc + 1 < s.prog.length := slot?_eq_some (fetch_ok_slots hf).2
  obtain ⟨x, hi, ha, rfl⟩ | ⟨-, hpc⟩ := h.pc_cases
  · exact .inr ⟨ha, hi⟩
  · exact .inl (by omega)

/-! ### The obligations -/

/-- Settles O20: `exec` of the jump by A, the halt past the end, a jump that is its own next state, the oracle stop. -/
theorem jumpIfANonzeroSetsPc : Obligations.JumpIfANonzeroSetsPc := by
  refine ⟨fun x hx => ?encoding, fun s x ha => ?taken, fun s x ha => ?notTaken, fun s x hr hm hl ha => ⟨?toEnd, ?halts⟩,
    fun s hr hm ha hf k => ?hang, fun s x hr hm hf => ?oracle⟩
  case encoding => exact congrArg (Except.map Instr.jumpIfANonzero) (decodeLiteral_of_le hx)
  case taken => exact exec_jump_taken x ha
  case notTaken => exact exec_jump_not_taken x ha
  case toEnd => exact exec_jump_taken x ha
  case halts => exact step_halts_of_past_end (s := s.setPc x) hr hm hl
  case hang => exact runSteps_of_step_self (step_takes_jump hr hm ha hf) k
  case oracle => exact ⟨oracleStop s, step_stops_at_jump hr hm hf, oracleStop_pc s, (oracleStop_ends s).1⟩

/-- Settles O33: the halt, its inversion, how PC comes to be past the end, and a Start of no program. -/
theorem haltIsPcPastTheEnd : Obligations.HaltIsPcPastTheEnd := by
  refine ⟨fun s => step_halts_of_past_end, fun s t => step_halted_inv, fun s t h ht hl => ?pastEnd,
    fun s t q hq hm hp => ?empty⟩
  case pastEnd =>
    obtain ⟨-, hprog, -⟩ := step_keeps_setup h
    rw [hprog] at hl ⊢
    obtain ⟨-, i, hf, heff⟩ | ⟨hfin, -⟩ := step_executes_or_ends h
    · exact (heff.pc_past_end hf hl).imp_right fun ⟨ha, hi⟩ => ⟨ha, hi ▸ hf⟩
    · exact absurd ht (ne_running_of_final hfin)
  case empty =>
    obtain ⟨-, -, rfl⟩ := start_ok_iff.1 hq
    have hl : (started s.config q).prog.length ≤ (started s.config q).pc := by simp [started, hp]
    exact ⟨step_halts_of_past_end rfl hm hl, rfl⟩

/-- Settles O21: the jump taken, then the checks of the next step at the target in their order. -/
theorem jumpTargetIsUnchecked : Obligations.JumpTargetIsUnchecked := by
  refine fun s x hr hm ha hf => ⟨?jump, fun hl => ?halts, fun hl => ?oracle, fun hl => ?beyondEnd,
    fun o y i ho hy hd => ?executes⟩
  case jump => exact step_takes_jump hr hm ha hf
  case halts => exact step_halts_of_past_end (s := s.setPc x) hr hm hl
  case oracle => exact step_faults_of_past_end (s := { s with pc := x, mode := .oracle }) hr rfl hl
  case beyondEnd =>
    have hpc : x < s.prog.length := by omega
    exact step_of_fetch_error (s := s.setPc x) hr hpc (fetch_of_no_operand hl.ge)
  case executes => exact step_of_fetch_in_run (s := s.setPc x) hr hm (fetch_ok_iff.2 ⟨o, y, ho, hy, hd⟩)

end Sys2Proof.Machine

/-! ## The output family (`44_output.md`): one digit appended, or the fault of a full OUT -/

namespace Sys2Proof.Machine

/-! ### When OUT is full -/

/-- OUT has room exactly when its length is not a finite capacity (R37). -/
theorem outFull_eq_false_iff {s : State} :
    s.outFull = false ↔ ∀ n, s.config.outCapacity = some n → s.out.length ≠ n := by
  rw [← Bool.not_eq_true, outFull_iff]
  constructor
  · rintro hroom n hn rfl
    exact hroom hn
  · exact fun hroom hfull => hroom _ hfull rfl

/-! ### What emit does -/

/-- An emit into a full OUT appends nothing: only STATUS changes (R104, R118). -/
theorem exec_emit_of_full {s : State} {k : Combo} {v : Int} {n : Nat} (hv : comboValue s k = .ok v)
    (hn : s.config.outCapacity = some n) (hlen : s.out.length = n) :
    exec (.emit k) s = .next (s.raise .outputOverflow) := by
  have hfull : s.outFull = true := outFull_iff.2 (hlen ▸ hn)
  exact (ExecFault.full k v rfl hv hfull).exec_eq

/-- Of the three faults of an instruction, OUTPUT_OVERFLOW is the one that needs a full OUT (R117). -/
theorem ExecFault.outFull_of_overflow {i : Instr} {s : State} (h : ExecFault i s .outputOverflow) :
    s.outFull = true := by
  cases h with
  | full k v hi hv hf => exact hf

/-- An instruction that newly ends in OUTPUT_OVERFLOW found OUT full: its own effect would have kept STATUS. -/
theorem exec_overflow_inv {i : Instr} {s t : State} (hs : s.status ≠ .faulted .outputOverflow)
    (h : exec i s = .next t) (ht : t.status = .faulted .outputOverflow) : s.outFull = true := by
  obtain heff | ⟨code, hfault, rfl⟩ := exec_cases h
  · exact absurd (heff.keeps_status.symm.trans ht) hs
  · obtain rfl : code = .outputOverflow := Status.faulted.inj ht
    exact hfault.outFull_of_overflow

/-! ### The obligations -/

/-- Settles O22: the effect where OUT has room, the two faults of emit, and the digits of the corner cases. -/
theorem emitAppendsOneDigit : Obligations.EmitAppendsOneDigit := by
  refine ⟨fun x k hk => ?encoding, fun s k v hv hroom => ?effect, fun s k v n => ?full, fun s => ?reserved,
    fun x hx => ?literal, rfl, rfl⟩
  case encoding => exact congrArg (Except.map Instr.emit) hk
  case effect => exact (ExecEffect.emit k v hv (outFull_eq_false_iff.2 hroom)).exec_eq
  case full => exact exec_emit_of_full
  case reserved => exact (ExecFault.reserved (by simp)).exec_eq
  case literal => exact mod8_of_le (by omega)

/-- Settles O23: the fault of a full OUT, and that an unbounded OUT is never full. -/
theorem fullOutputFaults : Obligations.FullOutputFaults := by
  refine ⟨fun s k v n => ?full, fun s t i hcap hrun h ht => ?unbounded⟩
  case full => exact exec_emit_of_full
  case unbounded =>
    have hs : s.status ≠ .faulted .outputOverflow := by simp [hrun]
    have hcapacity : s.config.outCapacity = some s.out.length := outFull_iff.1 (exec_overflow_inv hs h ht)
    simp [hcap] at hcapacity

end Sys2Proof.Machine

/-! ## The oracle family (`45_oracle.md`): a Start and a step over the two modes, and the ends of an oracle pass -/

namespace Sys2Proof.Machine

/-! ### A state in another mode -/

/-- `s` with another MODE. -/
def State.withMode (s : State) (m : Mode) : State := { s with mode := m }

@[simp] theorem State.readReg_withMode (s : State) (m : Mode) (r : Reg) :
    (s.withMode m).readReg r = s.readReg r := by cases r <;> rfl

/-- A state put back into its own mode is itself. -/
theorem State.withMode_withMode_of_mode {s : State} {m : Mode} (h : s.mode = m) (n : Mode) :
    (s.withMode n).withMode m = s := by
  subst h; rfl

/-! ### What does not read MODE: the operands, the instructions, the fetch -/

theorem comboValue_withMode (s : State) (m : Mode) (k : Combo) : comboValue (s.withMode m) k = comboValue s k := by
  cases k <;> simp [comboValue]

theorem fetch_withMode (s : State) (m : Mode) : fetch (s.withMode m) = fetch s := fetch_congr rfl rfl

/-- An own effect is the same in both modes, but for MODE. -/
theorem ExecEffect.withMode {i : Instr} {s t : State} (h : ExecEffect s i t) (m : Mode) :
    ExecEffect (s.withMode m) i (t.withMode m) := by
  have hval {k : Combo} {v : Int} (hv : comboValue s k = .ok v) : comboValue (s.withMode m) k = .ok v :=
    (comboValue_withMode s m k).trans hv
  cases h with
  | shiftA k n hn h0 => exact .shiftA k n (hval hn) h0
  | xorBLiteral x => exact .xorBLiteral x
  | modB k v hv => exact .modB k v (hval hv)
  | jumpTaken x ha => exact .jumpTaken (s := s.withMode m) x ha
  | jumpNotTaken x ha => exact .jumpNotTaken (s := s.withMode m) x ha
  | xorBC x => exact .xorBC x
  | emit k v hv hf => exact .emit k v (hval hv) hf
  | shiftB k n hn h0 => exact .shiftB k n (hval hn) h0
  | shiftC k n hn h0 => exact .shiftC k n (hval hn) h0

/-- A fault is the same in both modes. -/
theorem ExecFault.withMode {i : Instr} {s : State} {code : FaultCode} (h : ExecFault i s code) (m : Mode) :
    ExecFault i (s.withMode m) code := by
  cases h with
  | reserved hi => exact .reserved hi
  | negative r hr hi => exact .negative r (by simpa using hr) hi
  | full k v hi hv hf => exact .full k v hi ((comboValue_withMode s m k).trans hv) hf

/-- `exec` looks at MODE nowhere (R107). -/
theorem exec_withMode {i : Instr} {s t : State} (h : exec i s = .next t) (m : Mode) :
    exec i (s.withMode m) = .next (t.withMode m) := by
  obtain heff | ⟨code, hfault, rfl⟩ := exec_cases h
  · exact (heff.withMode m).exec_eq
  · exact (hfault.withMode m).exec_eq

/-! ### A step and a Start over the two modes -/

/-- In either mode a step executes a fetched instruction that is no jump. -/
theorem step_of_fetch_not_jump {s : State} {i : Instr} (hr : s.status = .running) (hf : fetch s = .ok i)
    (hj : i.isJump = false) : step s = exec i s :=
  (step_of_fetch_ok hr hf).trans (runFetched_of_exec (.inr hj))

theorem isJump_eq_false_of_ne {i : Instr} (h : ∀ x, i ≠ .jumpIfANonzero x) : i.isJump = false := by
  cases i with
  | jumpIfANonzero x => exact absurd rfl (h x)
  | _ => rfl

/-- Inside the program and where no jump is fetched, a step is the same in both modes but for MODE, whichever of the two
it is known for: the fetch's fault is raised, or the instruction executes (R107). -/
theorem step_withMode {s t : State} (hl : s.pc < s.prog.length) (hj : ∀ x, fetch s ≠ .ok (.jumpIfANonzero x))
    (h : step s = .next t) (m : Mode) : step (s.withMode m) = .next (t.withMode m) := by
  obtain ⟨hr, -⟩ := step_cases h
  have hf' := fetch_withMode s m
  cases hf : fetch s with
  | error code =>
    rw [step_of_fetch_error hr hl hf] at h
    cases h
    exact step_of_fetch_error (s := s.withMode m) hr hl (hf'.trans hf)
  | ok i =>
    have hi : i.isJump = false := isJump_eq_false_of_ne fun x hx => hj x (hx ▸ hf)
    rw [step_of_fetch_not_jump hr hf hi] at h
    rw [step_of_fetch_not_jump (s := s.withMode m) hr (hf'.trans hf) hi]
    exact exec_withMode h m

/-- The validation does not read the mode (R140). -/
theorem validate_mode (cfg : Config) (q : StartArgs) (m : Mode) :
    validate cfg { q with mode := m } = validate cfg q := rfl

/-- A Start accepted in one mode is accepted in the other, with the same state but for MODE. -/
theorem start_withMode {q : StartArgs} {s t : State} (h : start q s = .ok t) (m : Mode) :
    start { q with mode := m } s = .ok (t.withMode m) := by
  obtain ⟨hnot, hv, rfl⟩ := start_ok_iff.1 h
  exact start_ok_iff.2 ⟨hnot, (validate_mode s.config q m).trans hv, rfl⟩

/-- A Start is rejected as BUSY while Running, and else with what the validation finds (R136, R140). -/
theorem start_error_iff {q : StartArgs} {s : State} {e : LoadError} :
    start q s = .error e ↔
      (s.status = .running ∧ e = .busy) ∨ (s.status ≠ .running ∧ validate s.config q = some e) := by
  unfold start
  by_cases hr : s.status = .running
  · simp [hr, eq_comm]
  · cases hv : validate s.config q <;> simp [hr]

/-- Both modes reject the same Starts, for the same reason. -/
theorem start_error_mode_iff {q : StartArgs} {s : State} {e : LoadError} (m : Mode) :
    start { q with mode := m } s = .error e ↔ start q s = .error e := by
  rw [start_error_iff, validate_mode, start_error_iff]

/-! ### The obligations -/

/-- Settles O44: a Start and a step carry over from either mode to the other, so each equivalence is one law used both
ways. -/
theorem oracleStepsAsTheFullEngine : Obligations.OracleStepsAsTheFullEngine := by
  refine ⟨fun q s t => ⟨fun h => ?startToOracle, fun ⟨h, hm⟩ => ?startToRun⟩, fun q s e => ?rejected,
    fun q s t h => ?pc, fun s t hm hl hj => ⟨fun h => ?stepToOracle, fun ⟨h, ht⟩ => ?stepToRun⟩⟩
  case startToOracle =>
    obtain ⟨-, -, rfl⟩ := start_ok_iff.1 h
    exact ⟨start_withMode h .oracle, rfl⟩
  case startToRun => exact State.withMode_withMode_of_mode hm .oracle ▸ start_withMode h .run
  case rejected => exact (start_error_mode_iff .run).trans (start_error_mode_iff .oracle).symm
  case pc =>
    obtain ⟨-, -, rfl⟩ := start_ok_iff.1 h
    rfl
  case stepToOracle =>
    obtain ⟨ht, -, -⟩ := step_keeps_setup h
    exact ⟨step_withMode hl hj h .oracle, ht.trans hm⟩
  case stepToRun =>
    have hj' : ∀ x, fetch (s.withMode .oracle) ≠ .ok (.jumpIfANonzero x) := by rwa [fetch_withMode]
    have hback := step_withMode (s := s.withMode .oracle) (t := t.withMode .oracle) hl hj' h .run
    rwa [State.withMode_withMode_of_mode hm, State.withMode_withMode_of_mode ht] at hback

/-- Settles O42: opcode 3 with a legal operand is fetched as a jump, and the oracle stop goes by the digits in OUT. -/
theorem oracleStopsAtTheFirstJump : Obligations.OracleStopsAtTheFirstJump := by
  intro s x hr hm ho hx hle
  have hd : decode 3 x = .ok (.jumpIfANonzero x) := congrArg (Except.map Instr.jumpIfANonzero) (decodeLiteral_of_le hle)
  rw [step_stops_at_jump hr hm (fetch_ok_iff.2 ⟨3, x, ho, hx, hd⟩)]
  refine ⟨fun d hout => ?_, fun hout => ?_, fun hlen => ?_⟩
  · rw [oracleStop_of_singleton hout, State.finishOracle]
  · rw [oracleStop_of_nil hout, State.raise]
  · rw [oracleStop_of_two_le hlen, State.raise]

/-- Settles O43: the first check of a step, by the mode. -/
theorem oracleWithoutJumpFaults : Obligations.OracleWithoutJumpFaults :=
  fun _ hr hm hl => step_faults_of_past_end hr hm hl

end Sys2Proof.Machine

/-! ## The exceptions family (`60_exceptions.md`): the priority, the precision and the causes of the faults -/

namespace Sys2Proof.Machine

/-! ### The conditions of an instruction, in order -/

/-- The value of a combo field other than 7, by the field's number (R79). -/
def State.fieldValue (s : State) (x : Nat) : Int :=
  if x = 4 then s.a else if x = 5 then s.b else if x = 6 then s.c else (x : Int)

theorem State.fieldValue_reg (s : State) (r : Reg) : s.fieldValue (Combo.reg r).field = s.readReg r := by
  cases r <;> rfl

theorem State.fieldValue_of_le_three (s : State) {x : Nat} (hx : x ≤ 3) : s.fieldValue x = (x : Int) := by
  rw [State.fieldValue, if_neg (by omega), if_neg (by omega), if_neg (by omega)]

/-- A combo operand with a value has a field other than 7, and the value is the field's. -/
theorem comboValue_field {s : State} {k : Combo} {v : Int} (hk : k.wf = true) (hv : comboValue s k = .ok v) :
    k.field ≠ 7 ∧ s.fieldValue k.field = v := by
  obtain ⟨n, rfl, rfl⟩ | ⟨r, rfl, rfl⟩ := comboValue_ok hv
  · have hn : n ≤ 3 := of_decide_eq_true hk
    exact ⟨show n ≠ 7 by omega, s.fieldValue_of_le_three hn⟩
  · exact ⟨by cases r <;> simp [Combo.field], s.fieldValue_reg r⟩

/-- What R120's conditions on an executed instruction, in order, make of STATUS: combo operand 7, negative shift amount,
full OUT. -/
def execStatus (s : State) (o x : Nat) : Status :=
  if (o = 0 ∨ o = 2 ∨ o = 5 ∨ o = 6 ∨ o = 7) ∧ x = 7 then .faulted .reservedCombo
  else if (o = 0 ∨ o = 6 ∨ o = 7) ∧ s.fieldValue x < 0 then .faulted .negShift
  else if o = 5 ∧ s.config.outCapacity = some s.out.length then .faulted .outputOverflow
  else .running

/-- Where an instruction has its own effect, none of the conditions holds. -/
theorem ExecEffect.execStatus_eq_running {i : Instr} {s t : State} (h : ExecEffect s i t) (hwf : i.wf = true) :
    execStatus s i.opcode i.operand = .running := by
  cases h with
  | shiftA k n hn h0 | shiftB k n hn h0 | shiftC k n hn h0 =>
    obtain ⟨h7, hval⟩ := comboValue_field hwf hn
    simp [execStatus, Instr.opcode, Instr.operand, h7, hval, h0]
  | modB k v hv =>
    obtain ⟨h7, -⟩ := comboValue_field hwf hv
    simp [execStatus, Instr.opcode, Instr.operand, h7]
  | emit k v hv hf =>
    obtain ⟨h7, -⟩ := comboValue_field hwf hv
    have hroom := mt outFull_iff.2 (Bool.eq_false_iff.1 hf)
    simp [execStatus, Instr.opcode, Instr.operand, h7, hroom]
  | _ => simp [execStatus, Instr.opcode]

/-- A fault's condition is the first that holds. -/
theorem ExecFault.execStatus_eq_faulted {i : Instr} {s : State} {code : FaultCode} (h : ExecFault i s code)
    (hwf : i.wf = true) : execStatus s i.opcode i.operand = .faulted code := by
  cases h with
  | reserved hi =>
    simp only [List.mem_cons, List.not_mem_nil, or_false] at hi
    obtain rfl | rfl | rfl | rfl | rfl := hi <;> rfl
  | negative r hr hi =>
    obtain ⟨h7, hval⟩ := comboValue_field (s := s) (k := .reg r) rfl rfl
    obtain ⟨q, rfl⟩ := mem_shifts_iff.1 hi
    cases q <;> simp [execStatus, Instr.shift, Instr.opcode, Instr.operand, h7, hval, hr]
  | full k v hi hv hf =>
    subst hi
    obtain ⟨h7, -⟩ := comboValue_field hwf hv
    simp [execStatus, Instr.opcode, Instr.operand, h7, outFull_iff.1 hf]

/-- STATUS after an instruction of a Running engine, by its two slots. -/
theorem exec_status {i : Instr} {s t : State} (hwf : i.wf = true) (hr : s.status = .running)
    (h : exec i s = .next t) : t.status = execStatus s i.opcode i.operand := by
  obtain heff | ⟨code, hfault, rfl⟩ := exec_cases h
  · rw [heff.keeps_status, hr, heff.execStatus_eq_running hwf]
  · rw [State.raise_status, hfault.execStatus_eq_faulted hwf]

/-! ### The conditions of a step, in order -/

theorem passEnd_status (s : State) :
    (passEnd s).status = if s.mode = .oracle then .faulted .oracleNoJump else .halted := by
  obtain hm | hm := mode_cases s
  · simp [passEnd_of_run hm, hm]
  · simp [passEnd_of_oracle hm, hm]

/-- Settles O30: the checks before the execution in their order, then those of the executed instruction. -/
theorem firstConditionInOrderIsReported : Obligations.FirstConditionInOrderIsReported := by
  refine fun s t hr h => ⟨fun hl => ?pastEnd, fun hl => ?noOperand, fun o x ho hx => ?pair⟩
  case pastEnd =>
    cases (step_of_past_end hr hl).symm.trans h
    exact passEnd_status s
  case noOperand =>
    cases (step_of_fetch_error hr (by omega) (fetch_of_no_operand hl.ge)).symm.trans h
    rfl
  case pair =>
    by_cases hgt : 7 < o ∨ 7 < x
    · cases (step_of_fetch_error hr (slot?_eq_some ho) (fetch_of_slot_gt ho hx hgt)).symm.trans h
      rw [if_pos hgt, State.raise_status]
    rw [if_neg hgt]
    obtain ⟨i, hd⟩ := decode_total (o := o) (x := x) (by omega) (by omega)
    obtain ⟨hstop, hexec⟩ := step_of_decoded hr ho hx hd
    by_cases hj : s.mode = .oracle ∧ o = 3
    · rw [if_pos hj]
      obtain ⟨hm, h3⟩ := hj
      cases (hstop hm h3).symm.trans h
      match hout : s.out with
      | [] => rw [oracleStop_of_nil hout, State.raise_status]
      | [d] => rw [oracleStop_of_singleton hout, State.finishOracle_status]
      | d :: d' :: l => rw [oracleStop_of_two_le (by simp [hout]), State.raise_status]
    · rw [if_neg hj]
      have hm : s.mode = .run ∨ o ≠ 3 := (mode_cases s).imp_right fun hm h3 => hj ⟨hm, h3⟩
      obtain ⟨hwf, rfl, rfl⟩ := decode_ok hd
      exact exec_status hwf hr ((hexec hm).symm.trans h)

/-! ### Precision -/

/-- Settles O31: a step that does not leave the engine Running changes STATUS alone. -/
theorem faultsArePrecise : Obligations.FaultsArePrecise := by
  intro s t code h ht
  obtain ⟨hrun, -⟩ | ⟨-, hprecise⟩ := step_executes_or_ends h
  · cases hrun.symm.trans ht
  · rwa [ht] at hprecise

/-! ### The causes -/

/-- No cause reads STATUS. -/
theorem causeHolds_withStatus (code : FaultCode) (s : State) (u : Status) :
    causeHolds code { s with status := u } = causeHolds code s := by
  cases code <;> rfl

/-- The fault of a fetched instruction has its cause. -/
theorem ExecFault.causeHolds_of_fetch {i : Instr} {s : State} {code : FaultCode} (h : ExecFault i s code)
    (hf : fetch s = .ok i) : causeHolds code s := by
  cases h with
  | reserved hi => simpa [causeHolds, hf] using hi
  | negative r hr hi => exact ⟨r, hr, by simpa [hf] using hi⟩
  | full k v hi hv hfull => exact ⟨hfull, k, v, hi ▸ hf, hv⟩

/-- A fault of the oracle stop, which a fetched opcode 3 brings about, has its cause. -/
theorem oracleStop_causeHolds {i : Instr} {s : State} {code : FaultCode} (hf : fetch s = .ok i)
    (hm : s.mode = .oracle) (hj : i.isJump = true) (h : (oracleStop s).status = .faulted code) : causeHolds code s := by
  have hslot : s.prog.slot? s.pc = some 3 := isJump_iff_opcode.1 hj ▸ (fetch_ok_slots hf).1
  obtain ⟨hout, e⟩ | ⟨d, -, e⟩ | ⟨hout, e⟩ := oracleStop_cases s <;> rw [e] at h <;> cases h
  · exact ⟨hm, hslot, hout⟩
  · exact ⟨hm, hslot, hout⟩

/-- A step that ends in a fault began in a state with the fault's cause, by the cases of a step. -/
theorem step_causeHolds {s t : State} {code : FaultCode} (h : step s = .next t) (ht : t.status = .faulted code) :
    causeHolds code s := by
  obtain ⟨hr, hc⟩ := step_cases h
  cases hc with
  | halt hl hm => cases ht
  | noJump hl hm => cases ht; exact ⟨hm, hl⟩
  | beyondEnd hl => cases ht; exact hl
  | badSlot o x ho hx hd => cases ht; exact ⟨o, x, ho, hx, decode_error hd⟩
  | oracleStop i hf hm hj => exact oracleStop_causeHolds hf hm hj ht
  | exec i t hf hm he =>
    obtain heff | ⟨code', hfault, rfl⟩ := exec_cases he
    · cases (heff.keeps_status.trans hr).symm.trans ht
    · cases ht; exact hfault.causeHolds_of_fetch hf

/-- Settles O32: the codes, the field CAUSE, and the cause before the step, which is the cause after it. -/
theorem faultsHaveTheListedCauses : Obligations.FaultsHaveTheListedCauses := by
  refine ⟨by decide, fun code => ?range, fun s => ?field, fun s t code _ h ht => ?cause⟩
  case range => cases code <;> decide
  case field =>
    obtain ⟨-, -, -, -, hcause, -⟩ := statusWordFields s
    rw [hcause]
    cases s.status <;> rfl
  case cause =>
    have hs : causeHolds code s := step_causeHolds h ht
    refine ⟨hs, ?_⟩
    rwa [faultsArePrecise s t code h ht, causeHolds_withStatus]

end Sys2Proof.Machine

/-! ## The reset family (`70_reset_and_hazards.md`): what a Start answers, and an instruction's source and destination -/

namespace Sys2Proof.Machine

/-! ### The validation, check by check -/

theorem validate_of_odd_length {cfg : Config} {q : StartArgs} (h : q.prog.length % 2 = 1) :
    validate cfg q = some .oddLength := if_pos h

theorem validate_of_too_long {cfg : Config} {q : StartArgs} (heven : q.prog.length % 2 = 0)
    (h : cfg.progMax < q.prog.length) : validate cfg q = some .progTooLong := by
  rw [validate, if_neg (by omega), if_pos h]

theorem validate_of_slot_out_of_range {cfg : Config} {q : StartArgs} (heven : q.prog.length % 2 = 0)
    (hmax : q.prog.length ≤ cfg.progMax) (h : ∃ v ∈ q.prog, v < 0 ∨ 7 < v) : validate cfg q = some .digitRange := by
  have hall : q.prog.all (fun v => decide (0 ≤ v) && decide (v ≤ 7)) = false := by
    obtain ⟨v, hv, hrange⟩ := h
    rw [List.all_eq_false]
    refine ⟨v, hv, ?_⟩
    simp only [Bool.and_eq_true, decide_eq_true_eq]
    omega
  rw [validate, if_neg (by omega), if_neg (by omega), hall]
  rfl

/-- A register value outside the width does not fit (R11). -/
theorem fitsRegister_eq_false {cfg : Config} {w : Nat} {v : Int} (hw : cfg.regWidth = some w)
    (h : v < -(2 ^ (w - 1) : Int) ∨ (2 ^ (w - 1) : Int) - 1 < v) : fitsRegister cfg v = false := by
  rw [← Bool.not_eq_true, fitsRegister_iff]
  intro hfits
  obtain ⟨hlo, hhi⟩ := hfits w hw
  omega

theorem validate_of_register_out_of_range {cfg : Config} {q : StartArgs} (heven : q.prog.length % 2 = 0)
    (hmax : q.prog.length ≤ cfg.progMax) (hslots : ∀ v ∈ q.prog, 0 ≤ v ∧ v ≤ 7)
    (h : ∃ v ∈ [q.a0, q.b0, q.c0], fitsRegister cfg v = false) : validate cfg q = some .regRange := by
  have hfits : (fitsRegister cfg q.a0 && fitsRegister cfg q.b0 && fitsRegister cfg q.c0) = false := by
    rw [Bool.and_eq_false_iff, Bool.and_eq_false_iff, or_assoc]
    simpa using h
  rw [validate_of_slots_in_range hslots, if_neg (by omega), if_neg (by omega), hfits]
  rfl

/-! ### What a Start answers -/

theorem start_of_running {q : StartArgs} {s : State} (h : s.status = .running) : start q s = .error .busy :=
  start_error_iff.2 (.inl ⟨h, rfl⟩)

theorem start_of_rejected {q : StartArgs} {s : State} {e : LoadError} (hnot : s.status ≠ .running)
    (h : validate s.config q = some e) : start q s = .error e := start_error_iff.2 (.inr ⟨hnot, h⟩)

theorem start_of_accepted {q : StartArgs} {s : State} (hnot : s.status ≠ .running) (h : validate s.config q = none) :
    start q s = .ok (started s.config q) := start_ok_iff.2 ⟨hnot, h, rfl⟩

/-- Of the state it finds, a Start reads only whether it is Running, and the parameters (R135). -/
theorem start_congr {s s' : State} (q : StartArgs) (hstatus : s.status = .running ↔ s'.status = .running)
    (hconfig : s.config = s'.config) : start q s = start q s' := by
  simp only [start, hstatus, hconfig]

/-- STATUSW of a Running engine shows the mode beside STATE 1 (R35, R137). -/
theorem statusw_of_running {s : State} (h : s.status = .running) :
    s.statusw = if s.mode = .oracle then 0x0041 else 0x0001 := by
  rw [State.statusw, State.modeField_eq, h]
  cases s.mode <;> rfl

/-! ### The obligations -/

/-- Settles O55: the LoadErrors check by check, and what the validation accepts. -/
theorem startRejectsInOrder : Obligations.StartRejectsInOrder := by
  refine fun q s => ⟨start_of_running, fun hnot => ⟨fun hodd => ?oddLength, fun heven => ⟨fun hlong => ?progTooLong,
    fun hmax => ⟨fun hslot => ?digitRange, fun hslots => ⟨fun ⟨w, hw, v, hv, hrange⟩ => ?regRange,
      fun hregs => ?accepted⟩⟩⟩⟩⟩
  case oddLength => exact start_of_rejected hnot (validate_of_odd_length hodd)
  case progTooLong => exact start_of_rejected hnot (validate_of_too_long heven hlong)
  case digitRange => exact start_of_rejected hnot (validate_of_slot_out_of_range heven hmax hslot)
  case regRange =>
    exact start_of_rejected hnot
      (validate_of_register_out_of_range heven hmax hslots ⟨v, hv, fitsRegister_eq_false hw hrange⟩)
  case accepted =>
    have hfits : ∀ v ∈ [q.a0, q.b0, q.c0], fitsRegister s.config v = true :=
      fun v hv => fitsRegister_iff.2 fun w hw => hregs w hw v hv
    have hvalid : validate s.config q = none :=
      validate_none_iff.2 ⟨heven, hmax, hslots, hfits _ (by simp), hfits _ (by simp), hfits _ (by simp)⟩
    exact ⟨_, start_of_accepted hnot hvalid⟩

/-- Settles O24: the effect of each instruction, at the value its source register holds before the write. -/
theorem sourceIsReadBeforeDestinationIsWritten : Obligations.SourceIsReadBeforeDestinationIsWritten := by
  refine fun s => ⟨fun ha => ?shiftA, ?modB, fun hb => ?shiftB, fun hc => ?shiftC, fun x => ?xorBLiteral,
    fun x => ?xorBC⟩
  case shiftA => exact exec_shift_of_nonneg .A rfl ha rfl
  case modB => exact exec_modB (k := .reg .B) rfl rfl
  case shiftB => exact exec_shift_of_nonneg .B rfl hb rfl
  case shiftC => exact exec_shift_of_nonneg .C rfl hc rfl
  case xorBLiteral => exact exec_xorBLiteral rfl
  case xorBC => exact exec_xorBC x rfl

/-- Settles O54: the rejections, and the state an accepted Start makes, field by field. -/
theorem startSetsTheWholeState : Obligations.StartSetsTheWholeState := by
  refine fun q s => ⟨start_of_running, fun e hnot hv => start_of_rejected hnot hv, fun hnot hv =>
    ⟨started s.config q, start_of_accepted hnot hv, rfl, rfl, rfl, rfl, rfl, rfl, rfl, started_prog_eq hv, ?length, rfl,
      ?statusw⟩⟩
  case length => exact List.length_map _
  case statusw => exact statusw_of_running rfl

/-- Settles O56: the two Starts answer alike, so the runs begin from one state. -/
theorem startForgetsEarlierRuns : Obligations.StartForgetsEarlierRuns := by
  intro q s s' hs hs' hconfig
  have hstart : start q s = start q s' := start_congr q (iff_of_false hs hs') hconfig
  refine ⟨hstart, fun t t' ht ht' k => ?_⟩
  obtain rfl : t = t' := Except.ok.inj (ht.symm.trans (hstart.trans ht'))
  rfl

end Sys2Proof.Machine

/-! ## The round trip of the decoder (`30_encoding.md`) and the step that runs what is decoded (`40_cycle.md`) -/

namespace Sys2Proof

/-- The decoder gives back every well-formed instruction from its two slots (R60, R66), opcode by opcode. -/
theorem decode_encode {i : Instr} (h : i.wf = true) : decode i.opcode i.operand = .ok i := by
  cases i with
  | shiftA x => exact Laws.RoundTrip.shiftA x h
  | xorBLiteral x => exact Laws.RoundTrip.xorBLiteral x h
  | modB x => exact Laws.RoundTrip.modB x h
  | jumpIfANonzero x => exact Laws.RoundTrip.jumpIfANonzero x h
  | xorBC x => exact Laws.RoundTrip.xorBC x h
  | emit x => exact Laws.RoundTrip.emit x h
  | shiftB x => exact Laws.RoundTrip.shiftB x h
  | shiftC x => exact Laws.RoundTrip.shiftC x h

/-- A packed word has 6 bits (R61). -/
theorem packedWord_lt {i : Instr} (h : i.wf = true) : packedWord i < 64 := by
  have hopcode := opcode_le i
  have hoperand := operand_le h
  unfold packedWord
  omega

/-- A pair with a slot above 7 is no instruction: whatever decodes is the encoding of a well-formed one (R70). -/
theorem decode_of_slot_gt {o x : Nat} (h : 7 < o ∨ 7 < x) : decode o x = .error .badSlotValue := by
  cases hd : decode o x with
  | ok i =>
    obtain ⟨hwf, rfl, rfl⟩ := decode_ok hd
    have hopcode := opcode_le i
    have hoperand := operand_le hwf
    omega
  | error e => cases e; rfl

/-- Settles O1: the round trip in slots, which a packed word read in 6 bits or more carries over. -/
theorem decodeInvertsEncode : Obligations.DecodeInvertsEncode := fun i h =>
  ⟨rfl, decode_encode h, packedWord_lt h, fun _ hn =>
    (decodeTableWord_packed_iff (opcode_le i) (operand_le h) hn).2 (decode_encode h)⟩

/-- Settles O2: the pairs of slots, the pair of a decoded instruction, and the pairs with a slot above 7. -/
theorem decodeIsTotalAndFaithful : Obligations.DecodeIsTotalAndFaithful := by
  refine ⟨fun o x => decode_total, fun o x i hd => ?faithful, fun o x => decode_of_slot_gt⟩
  case faithful =>
    obtain ⟨hwf, rfl, rfl⟩ := decode_ok hd
    exact ⟨hwf, rfl⟩

/-- Settles O5: each word is a closed computation of the decoder. -/
theorem sampleWordsDecode : Obligations.SampleWordsDecode :=
  ⟨rfl, rfl, rfl, rfl, rfl, rfl, rfl, rfl, rfl⟩

namespace Machine

/-- Settles O28: the pair at PC is fetched as the instruction, and the mode decides between `exec` and the oracle stop. -/
theorem stepRunsTheDecodedInstruction : Obligations.StepRunsTheDecodedInstruction := by
  intro s i hr hwf ho hx
  have hf : fetch s = .ok i := fetch_ok_iff.2 ⟨i.opcode, i.operand, ho, hx, decode_encode hwf⟩
  rw [step_of_fetch_ok hr hf]
  exact ⟨hf, runFetched_of_exec, runFetched_of_stop⟩

end Machine

end Sys2Proof

/-! ## What every step keeps of the registers (`10_state.md` section 1): the operations, the step, the run -/

namespace Sys2Proof.Machine

/-! ### The values the instructions write -/

/-- A set of register values that the operations of the eight instructions do not leave: shifts, exclusive ors, and the
numbers 0 to 7, which literals and digits are. -/
structure ClosedUnderOps (P : Int → Prop) : Prop where
  sar : ∀ {v : Int} (n : Int), P v → P (sar v n)
  xor : ∀ {v w : Int}, P v → P w → P (xorInt v w)
  small : ∀ {x : Nat}, x ≤ 7 → P (x : Int)

/-- An own effect of a well-formed instruction keeps the registers within such a set. -/
theorem ExecEffect.keeps_regs {P : Int → Prop} (hP : ClosedUnderOps P) {i : Instr} {s t : State}
    (h : ExecEffect s i t) (hwf : i.wf = true) (hs : ∀ r, P (s.readReg r)) (r : Reg) : P (t.readReg r) := by
  have hwrite (q : Reg) {v : Int} (hv : P v) : P ((s.writeReg q v).advance.readReg r) := by
    rw [State.readReg_advance, State.readReg_writeReg]
    split
    · exact hv
    · exact hs r
  cases h with
  | shiftA k n hn h0 => exact hwrite .A (hP.sar n (hs .A))
  | xorBLiteral x => exact hwrite .B (hP.xor (hs .B) (hP.small (of_decide_eq_true hwf)))
  | modB k v hv => exact hwrite .B (hP.small (by omega))
  | jumpTaken x ha => simpa using hs r
  | jumpNotTaken x ha => simpa using hs r
  | xorBC x => exact hwrite .B (hP.xor (hs .B) (hs .C))
  | emit k v hv hf => simpa using hs r
  | shiftB k n hn h0 => exact hwrite .B (hP.sar n (hs .A))
  | shiftC k n hn h0 => exact hwrite .C (hP.sar n (hs .A))

/-- A fetched instruction is well-formed. -/
theorem fetch_ok_wf {s : State} {i : Instr} (h : fetch s = .ok i) : i.wf = true := by
  obtain ⟨o, x, -, -, hd⟩ := fetch_ok_iff.1 h
  exact (decode_ok hd).1

/-- Every step keeps the registers within such a set. -/
theorem step_keeps_regs {P : Int → Prop} (hP : ClosedUnderOps P) {s t : State} (h : step s = .next t)
    (hs : ∀ r, P (s.readReg r)) (r : Reg) : P (t.readReg r) := by
  obtain ⟨-, i, hf, heff⟩ | ⟨-, e⟩ := step_executes_or_ends h
  · exact heff.keeps_regs hP (fetch_ok_wf hf) hs r
  · rw [e]
    cases r
    exacts [hs .A, hs .B, hs .C]

/-! ### Values of a finite width -/

/-- A value has width `w` when its magnitude, or that of its complement, has `w - 1` bits. -/
theorem withinWidth_natCast_iff {w n : Nat} : withinWidth w n ↔ n < 2 ^ (w - 1) := by
  have hcast : ((2 ^ (w - 1) : Nat) : Int) = 2 ^ (w - 1) := by push_cast; rfl
  unfold withinWidth
  omega

theorem withinWidth_negSucc_iff {w n : Nat} : withinWidth w (Int.negSucc n) ↔ n < 2 ^ (w - 1) := by
  have hcast : ((2 ^ (w - 1) : Nat) : Int) = 2 ^ (w - 1) := by push_cast; rfl
  unfold withinWidth
  omega

/-- The shift moves a value towards 0 or -1. -/
theorem withinWidth_sar {w : Nat} {v : Int} (n : Int) (h : withinWidth w v) : withinWidth w (sar v n) := by
  obtain ⟨hlo, hhi⟩ := h
  obtain ⟨hpos, hneg⟩ := sar_between v n
  unfold withinWidth
  omega

/-- The exclusive or works on the magnitudes, and sets no bit that neither has. -/
theorem withinWidth_xorInt {w : Nat} {u v : Int} (hu : withinWidth w u) (hv : withinWidth w v) :
    withinWidth w (xorInt u v) := by
  cases u with
  | ofNat n =>
    have hn := withinWidth_natCast_iff.1 hu
    cases v with
    | ofNat m => exact withinWidth_natCast_iff.2 (Nat.xor_lt_two_pow hn (withinWidth_natCast_iff.1 hv))
    | negSucc m => exact withinWidth_negSucc_iff.2 (Nat.xor_lt_two_pow hn (withinWidth_negSucc_iff.1 hv))
  | negSucc n =>
    have hn := withinWidth_negSucc_iff.1 hu
    cases v with
    | ofNat m => exact withinWidth_negSucc_iff.2 (Nat.xor_lt_two_pow hn (withinWidth_natCast_iff.1 hv))
    | negSucc m => exact withinWidth_natCast_iff.2 (Nat.xor_lt_two_pow hn (withinWidth_negSucc_iff.1 hv))

/-- Literals and digits have 4 bits (R23). -/
theorem withinWidth_of_le_seven {w x : Nat} (hw : 4 ≤ w) (hx : x ≤ 7) : withinWidth w x := by
  have hpow : 2 ^ 3 ≤ 2 ^ (w - 1) := Nat.pow_le_pow_right (by decide) (by omega)
  exact withinWidth_natCast_iff.2 (by omega)

theorem withinWidth_closed {w : Nat} (hw : 4 ≤ w) : ClosedUnderOps (withinWidth w) where
  sar n := withinWidth_sar n
  xor := withinWidth_xorInt
  small := withinWidth_of_le_seven hw

/-! ### A realisation of finite width -/

/-- A register of `w` bits holds exactly the values of width `w` (R21). -/
theorem toInt_ofInt_of_withinWidth {w : Nat} {v : Int} (hw : 0 < w) (h : withinWidth w v) :
    (BitVec.ofInt w v).toInt = v := BitVec.toInt_ofInt_eq_self hw h.1 h.2

/-- The exclusive or of the two's-complement bits is that of the integers: a negative operand's bits are the complement of
its magnitude's. -/
theorem ofInt_xorInt (w : Nat) (u v : Int) : BitVec.ofInt w (xorInt u v) = BitVec.ofInt w u ^^^ BitVec.ofInt w v := by
  cases u <;> cases v <;>
    simp only [xorInt, Int.ofNat_eq_natCast, BitVec.ofInt_natCast, BitVec.ofInt_negSucc_eq_not_ofNat, BitVec.ofNat_xor]
  case ofNat.negSucc => exact BitVec.not_xor_right
  case negSucc.ofNat => exact BitVec.not_xor_left
  case negSucc.negSucc => rw [← BitVec.not_xor_left, ← BitVec.not_xor_right, BitVec.not_not]

/-- The low three bits of a register of at least 3 bits are the integer's: 8 divides `2^w`. -/
theorem toNat_ofInt_mod_eight {w : Nat} (hw : 3 ≤ w) (v : Int) : (BitVec.ofInt w v).toNat % 8 = (mod8 v).val := by
  have hdvd : (8 : Int) ∣ ((2 ^ w : Nat) : Int) := by exact_mod_cast pow_dvd_pow 2 hw
  have hpos : 0 ≤ v % ((2 ^ w : Nat) : Int) := Int.emod_nonneg v (by positivity)
  have hmod : v % ((2 ^ w : Nat) : Int) % 8 = v % 8 := Int.emod_emod_of_dvd v hdvd
  have hval := mod8_val v
  rw [BitVec.toNat_ofInt]
  omega

/-- Settles O12: a register holds the operands, so the width's own shift and exclusive or are the integers'. -/
theorem finiteWidthRegistersAreExact : Obligations.FiniteWidthRegistersAreExact := by
  intro w u v hw hu hv
  have hpos : 0 < w := by omega
  have hxor := withinWidth_xorInt hu hv
  refine ⟨fun n _ => ⟨?shift, withinWidth_sar n hu⟩, ?xor, hxor, toNat_ofInt_mod_eight (by omega) u,
    withinWidth_of_le_seven hw (by omega)⟩
  case shift => rw [BitVec.toInt_sshiftRight, toInt_ofInt_of_withinWidth hpos hu, sar]
  case xor => rw [← ofInt_xorInt, toInt_ofInt_of_withinWidth hpos hxor]

/-! ### Registers over a run -/

/-- Settles O51: the values of width `w` are closed under the operations, and a run is its steps. -/
theorem registerWidthNeverGrows : Obligations.RegisterWidthNeverGrows := fun _ s hw hs k =>
  runSteps_keeps (fun _ _ hregs h => step_keeps_regs (withinWidth_closed hw) h hregs) k s hs

/-- The values that are not negative are closed under the operations (R24). -/
theorem nonneg_closed : ClosedUnderOps (fun v => 0 ≤ v) where
  sar n := sar_nonneg n
  xor hv hw := not_lt.1 fun h => by
    have := (xorInt_neg_iff _ _).1 h
    omega
  small _ := Int.natCast_nonneg _

/-- A step that ends in NEG_SHIFT found a negative register (R94, R117). -/
theorem step_not_negShift {s t : State} (hs : ∀ r, 0 ≤ s.readReg r) (h : step s = .next t) :
    t.status ≠ .faulted .negShift := by
  intro ht
  obtain ⟨r, hr, -⟩ := step_causeHolds h ht
  exact absurd (hs r) (not_le.2 hr)

/-- Settles O52: registers that are not negative, and no NEG_SHIFT, are kept together. -/
theorem nonNegativeRegistersStaySo : Obligations.NonNegativeRegistersStaySo := by
  intro s hrun hs k
  refine runSteps_keeps (P := fun u => (∀ r, 0 ≤ u.readReg r) ∧ u.status ≠ .faulted .negShift) ?_ k s
    ⟨hs, by simp [hrun]⟩
  rintro u t ⟨hu, -⟩ h
  exact ⟨step_keeps_regs nonneg_closed h hu, step_not_negShift hu h⟩

end Sys2Proof.Machine

/-! ## Frames (`10_state.md` R26): what each instruction writes, and what it reads -/

namespace Sys2Proof

/-- The register an instruction writes (the "writes" column of R26). -/
def Instr.dest : Instr → Option Reg
  | .shiftA _ => some .A
  | .xorBLiteral _ => some .B
  | .modB _ => some .B
  | .jumpIfANonzero _ => none
  | .xorBC _ => some .B
  | .emit _ => none
  | .shiftB _ => some .B
  | .shiftC _ => some .C

namespace Machine

/-! ### What an instruction writes -/

/-- An own effect writes no register but the destination. -/
theorem ExecEffect.keeps_other_regs {i : Instr} {s t : State} (h : ExecEffect s i t) {r : Reg}
    (hr : i.dest ≠ some r) : t.readReg r = s.readReg r := by
  have hwrite {q : Reg} (v : Int) (hq : q ≠ r) : (s.writeReg q v).advance.readReg r = s.readReg r := by
    rw [State.readReg_advance, State.readReg_writeReg, if_neg hq.symm]
  cases h with
  | jumpTaken x ha => simp
  | jumpNotTaken x ha => simp
  | emit k v hv hf => simp
  | _ => exact hwrite _ fun hq => hr (congrArg some hq)

/-- An instruction writes no register but its destination. -/
theorem exec_keeps_other_regs {i : Instr} {s t : State} (h : exec i s = .next t) {r : Reg}
    (hr : i.dest ≠ some r) : t.readReg r = s.readReg r := by
  obtain heff | ⟨code, -, rfl⟩ := exec_cases h
  · exact heff.keeps_other_regs hr
  · rw [State.readReg_raise]

/-- An instruction leaves OUT alone, or is an emit that appends a digit (R36). -/
theorem exec_out_cases {i : Instr} {s t : State} (h : exec i s = .next t) :
    t.out = s.out ∨ ∃ k v, i = .emit k ∧ comboValue s k = .ok v ∧ t.out = s.out ++ [mod8 v] := by
  obtain heff | ⟨code, -, rfl⟩ := exec_cases h
  · exact heff.out_cases
  · exact .inl rfl

theorem exec_status_kept_or_faulted {i : Instr} {s t : State} (h : exec i s = .next t) : StatusKeptOrFaulted s t := by
  obtain heff | ⟨code, -, rfl⟩ := exec_cases h
  · exact .inl heff.keeps_status
  · exact .inr ⟨code, rfl⟩

/-- An instruction with a destination register writes none of the stores. -/
theorem exec_stores_kept {i : Instr} {s t : State} {r : Reg} (hi : i.dest = some r) (h : exec i s = .next t) :
    StoresKept s t := by
  obtain ⟨hm, hp, hc⟩ := exec_keeps_setup h
  obtain hout | ⟨k, v, rfl, -, -⟩ := exec_out_cases h
  · exact ⟨hout, hm, hc, congrArg List.length hp, fun j => congrArg (Memory.slot? · j) hp⟩
  · cases hi

/-- Settles O25: the two registers other than the destination, the stores and STATUS, from one lemma each. -/
theorem registerInstructionsFrame : Obligations.RegisterInstructionsFrame := by
  refine fun s t k x => ⟨fun h => ?shiftA, fun h => ?shiftC, fun i hi h => ?writesB⟩
  case shiftA =>
    exact ⟨exec_keeps_other_regs (r := .B) h (by simp [Instr.dest]),
      exec_keeps_other_regs (r := .C) h (by simp [Instr.dest]), exec_stores_kept rfl h, exec_status_kept_or_faulted h⟩
  case shiftC =>
    exact ⟨exec_keeps_other_regs (r := .A) h (by simp [Instr.dest]),
      exec_keeps_other_regs (r := .B) h (by simp [Instr.dest]), exec_stores_kept rfl h, exec_status_kept_or_faulted h⟩
  case writesB =>
    have hdest : i.dest = some .B := by
      simp only [List.mem_cons, List.not_mem_nil, or_false] at hi
      obtain rfl | rfl | rfl | rfl := hi <;> rfl
    exact ⟨exec_keeps_other_regs (r := .A) h (by simp [hdest]), exec_keeps_other_regs (r := .C) h (by simp [hdest]),
      exec_stores_kept hdest h, exec_status_kept_or_faulted h⟩

/-- Settles O26: the jump by A, and for emit the same frame lemmas with the digit appended. -/
theorem jumpAndEmitFrame : Obligations.JumpAndEmitFrame := by
  refine ⟨fun s t x h => ?jump, fun s t k h => ?emit⟩
  case jump =>
    by_cases ha : s.a = 0
    · cases (exec_jump_not_taken x ha).symm.trans h
      rfl
    · cases (exec_jump_taken x ha).symm.trans h
      rfl
  case emit =>
    have hregs (r : Reg) : t.readReg r = s.readReg r := exec_keeps_other_regs h (by simp [Instr.dest])
    obtain ⟨hm, hp, hc⟩ := exec_keeps_setup h
    refine ⟨hregs .A, hregs .B, hregs .C, hm, hc, congrArg List.length hp, fun j => congrArg (Memory.slot? · j) hp,
      exec_status_kept_or_faulted h, ?_⟩
    obtain hout | ⟨k', v, hk, hv, hout⟩ := exec_out_cases h
    · exact ⟨fun j _ => by rw [hout], .inl hout⟩
    · cases hk
      exact ⟨fun j hj => by rw [hout, List.getElem?_append_left hj], .inr ⟨v, hv, hout⟩⟩

/-! ### What an instruction reads -/

/-- What an instruction does that writes the register `r` and nothing else: the value, or the fault that stands in its
place. The six of them differ in `r` and in that value. -/
def State.writeOrRaise (s : State) (r : Reg) : Except FaultCode Int → State
  | .ok v => (s.writeReg r v).advance
  | .error code => s.raise code

theorem exec_shift_eq_writeOrRaise (r : Reg) (k : Combo) (s : State) :
    exec (.shift r k) s = .next (s.writeOrRaise r ((shiftAmount s k).map (sar s.a))) := by
  rw [exec_shift, shiftInto]
  cases shiftAmount s k <;> rfl

theorem exec_modB_eq_writeOrRaise (k : Combo) (s : State) :
    exec (.modB k) s = .next (s.writeOrRaise .B ((comboValue s k).map fun v => ((mod8 v).val : Int))) := by
  rw [exec, execModB]
  cases comboValue s k <;> rfl

/-- Of the state, a shift amount reads the value of its operand. -/
theorem shiftAmount_congr {s s' : State} {k : Combo} (hk : comboValue s k = comboValue s' k) :
    shiftAmount s k = shiftAmount s' k := by
  rw [shiftAmount, hk, shiftAmount]

section Reads
variable {s s' t t' : State} (hpc : s.pc = s'.pc) (hstatus : s.status = s'.status)
include hpc hstatus

/-- Of the two states a write or its fault is done in, the result reads PC, STATUS and, where it is the fault, the old
value of the destination. -/
theorem writeOrRaise_reads (r : Reg) (e : Except FaultCode Int) :
    ((∃ v, e = .ok v) ∨ s.readReg r = s'.readReg r →
      (s.writeOrRaise r e).readReg r = (s'.writeOrRaise r e).readReg r) ∧
    (s.writeOrRaise r e).pc = (s'.writeOrRaise r e).pc ∧
    (s.writeOrRaise r e).status = (s'.writeOrRaise r e).status := by
  cases e with
  | ok v => simp [State.writeOrRaise, State.readReg_writeReg, hpc, hstatus]
  | error code => simp [State.writeOrRaise, hpc]

/-- A shift reads A and its amount. -/
theorem exec_shift_reads (r : Reg) {k : Combo} (ha : s.a = s'.a) (hk : comboValue s k = comboValue s' k)
    (h : exec (.shift r k) s = .next t) (h' : exec (.shift r k) s' = .next t') :
    ((∃ n, comboValue s k = .ok n ∧ 0 ≤ n) ∨ s.readReg r = s'.readReg r → t.readReg r = t'.readReg r) ∧
      t.pc = t'.pc ∧ t.status = t'.status := by
  cases (exec_shift_eq_writeOrRaise r k s).symm.trans h
  cases (exec_shift_eq_writeOrRaise r k s').symm.trans h'
  rw [← ha, ← shiftAmount_congr hk]
  obtain ⟨hdest, hrest⟩ := writeOrRaise_reads hpc hstatus r ((shiftAmount s k).map (sar s.a))
  refine ⟨fun hcase => hdest (hcase.imp_left fun ⟨n, hn⟩ => ⟨sar s.a n, ?_⟩), hrest⟩
  rw [shiftAmount_ok_iff.2 hn]
  rfl

/-- mod-B reads its operand's value. -/
theorem exec_modB_reads {k : Combo} (hk : comboValue s k = comboValue s' k)
    (h : exec (.modB k) s = .next t) (h' : exec (.modB k) s' = .next t') :
    ((∃ v, comboValue s k = .ok v) ∨ s.b = s'.b → t.b = t'.b) ∧ t.pc = t'.pc ∧ t.status = t'.status := by
  cases (exec_modB_eq_writeOrRaise k s).symm.trans h
  cases (exec_modB_eq_writeOrRaise k s').symm.trans h'
  rw [← hk]
  obtain ⟨hdest, hrest⟩ := writeOrRaise_reads hpc hstatus .B ((comboValue s k).map fun v => ((mod8 v).val : Int))
  refine ⟨fun hcase => hdest (hcase.imp_left fun ⟨v, hv⟩ => ⟨((mod8 v).val : Int), ?_⟩), hrest⟩
  rw [hv]
  rfl

/-- An exclusive or always writes B, so it reads what its value `v` is made of. -/
theorem exec_xor_reads {i : Instr} (v : Int) (hi : exec i s = .next (s.writeReg .B v).advance)
    (hi' : exec i s' = .next (s'.writeReg .B v).advance) (h : exec i s = .next t) (h' : exec i s' = .next t') :
    t.b = t'.b ∧ t.pc = t'.pc ∧ t.status = t'.status := by
  cases hi.symm.trans h
  cases hi'.symm.trans h'
  obtain ⟨hdest, hrest⟩ := writeOrRaise_reads hpc hstatus .B (.ok v)
  exact ⟨hdest (.inl ⟨v, rfl⟩), hrest⟩

/-- The jump reads A. -/
theorem exec_jump_reads {x : Nat} (ha : s.a = s'.a) (h : exec (.jumpIfANonzero x) s = .next t)
    (h' : exec (.jumpIfANonzero x) s' = .next t') : t.pc = t'.pc ∧ t.status = t'.status := by
  by_cases h0 : s.a = 0
  · cases (exec_jump_not_taken x h0).symm.trans h
    cases (exec_jump_not_taken x (ha ▸ h0)).symm.trans h'
    exact ⟨congrArg (· + 2) hpc, hstatus⟩
  · cases (exec_jump_taken x h0).symm.trans h
    cases (exec_jump_taken x (ha ▸ h0)).symm.trans h'
    exact ⟨rfl, hstatus⟩

/-- emit reads its operand's value and whether OUT is full. -/
theorem exec_emit_reads {k : Combo} (hk : comboValue s k = comboValue s' k) (hfull : s.outFull = s'.outFull)
    (h : exec (.emit k) s = .next t) (h' : exec (.emit k) s' = .next t') :
    t.out.drop s.out.length = t'.out.drop s'.out.length ∧ t.pc = t'.pc ∧ t.status = t'.status := by
  obtain heff | ⟨code, hfault, rfl⟩ := exec_cases h
  · cases heff with
    | emit k v hv hf =>
      cases (ExecEffect.emit (s := s') k v (hk ▸ hv) (hfull ▸ hf)).exec_eq.symm.trans h'
      simp [hpc, hstatus]
  · have hfault' : ExecFault (.emit k) s' code := by
      cases hfault with
      | reserved hi => exact .reserved hi
      | negative r hr hi => simp at hi
      | full k v hi hv hf => cases hi; exact .full k v rfl (hk ▸ hv) (hfull ▸ hf)
    cases hfault'.exec_eq.symm.trans h'
    simp [hpc]

end Reads

/-- Settles O27, instruction by instruction: shift-A's destination is among its sources, so its old value is given. -/
theorem instructionsReadOnlyTheirSources : Obligations.InstructionsReadOnlyTheirSources := by
  refine fun s s' t t' k x hpc hst => ⟨fun ha hk => ⟨fun h h' => ?shiftA, exec_shift_reads hpc hst .B ha hk,
    exec_shift_reads hpc hst .C ha hk⟩, fun hb => ?xorBLiteral, exec_modB_reads hpc hst, exec_jump_reads hpc hst,
    fun hb hc => ?xorBC, exec_emit_reads hpc hst⟩
  case shiftA =>
    obtain ⟨hdest, hrest⟩ := exec_shift_reads hpc hst .A ha hk h h'
    exact ⟨hdest (.inr ha), hrest⟩
  case xorBLiteral => exact exec_xor_reads hpc hst (xorInt s.b x) (exec_xorBLiteral rfl) (exec_xorBLiteral (by rw [hb]))
  case xorBC => exact exec_xor_reads hpc hst (xorInt s.b s.c) (exec_xorBC x rfl) (exec_xorBC x (by rw [hb, hc]))

end Machine

end Sys2Proof

/-! ## Runs (`20_memory.md` R53, `40_cycle.md` R89 and R90, `45_oracle.md` R106 and R112): how they go on, and how they end -/

namespace Sys2Proof.Machine

/-! ### The last step of a run -/

/-- One more step at the end of a run. -/
theorem runSteps_succ {s : State} {k : Nat} {t : State} (h : step (runSteps k s) = .next t) :
    runSteps (k + 1) s = t := by
  rw [runSteps_add, runSteps_succ_of_next h, runSteps]

/-- A run that has ended stays as it is (R133). -/
theorem runSteps_succ_of_not_running {s : State} {k : Nat} (h : (runSteps k s).status ≠ .running) :
    runSteps (k + 1) s = runSteps k s := by
  rw [runSteps_add, runSteps_of_not_running h]

/-- A run that is over has had a last step, from a Running state. -/
theorem exists_last_step {s : State} (hr : s.status = .running) :
    ∀ {k : Nat}, (runSteps k s).status ≠ .running →
      ∃ j, j < k ∧ (runSteps j s).status = .running ∧ step (runSteps j s) = .next (runSteps k s)
  | 0, h => absurd hr h
  | k + 1, h => by
    by_cases hk : (runSteps k s).status = .running
    · obtain ⟨t, ht⟩ := step_answers hk
      exact ⟨k, k.lt_succ_self, hk, by rw [ht, runSteps_succ ht]⟩
    · obtain ⟨j, hj, hrj, hlast⟩ := exists_last_step hr hk
      exact ⟨j, hj.trans k.lt_succ_self, hrj, by rw [hlast, runSteps_succ_of_not_running hk]⟩

/-! ### OUT over a run -/

/-- A step keeps the digits emitted (R36, R53). -/
theorem step_out_prefix {s t : State} (h : step s = .next t) : s.out <+: t.out := by
  obtain hout | ⟨k, v, -, -, hout⟩ := step_out_cases h
  · rw [hout]
  · exact hout ▸ List.prefix_append s.out [mod8 v]

/-- Settles O38: the later state is reached from the earlier one by steps that keep the digits. -/
theorem outputIsAHistory : Obligations.OutputIsAHistory := by
  intro s j k hjk
  obtain ⟨d, rfl⟩ := Nat.exists_eq_add_of_le hjk
  rw [runSteps_add]
  exact runSteps_keeps (P := fun u => (runSteps j s).out <+: u.out)
    (fun _ _ hu h => hu.trans (step_out_prefix h)) d _ (List.prefix_refl _)

/-! ### The self-jump -/

/-- Settles O40: the self-jump is fetched, and its state is its own next state. -/
theorem selfJumpNeverEnds : Obligations.SelfJumpNeverEnds := by
  rintro s x hr hm ha hx ho hoperand rfl
  have hf : fetch s = .ok (.jumpIfANonzero s.pc) :=
    fetch_ok_iff.2 ⟨3, s.pc, ho, hoperand, congrArg (Except.map Instr.jumpIfANonzero) (decodeLiteral_of_le hx)⟩
  have hself (k : Nat) : runSteps k s = s := runSteps_of_step_self (step_takes_jump hr hm ha hf) k
  refine ⟨fun k => ?_, fun k code => ?_⟩
  · rw [hself k]
    exact ⟨hr, rfl⟩
  · rw [hself k, hr]
    exact Status.noConfusion

/-! ### PC over a step -/

theorem takesJump_iff {s : State} :
    takesJump s = true ↔ ∃ x, fetch s = .ok (.jumpIfANonzero x) ∧ s.a ≠ 0 ∧ s.mode = .run := by
  unfold takesJump
  cases fetch s with
  | error code => simp
  | ok i => cases i <;> simp [Instr.isJump]

theorem takesJump_of_oracle {s : State} (hm : s.mode = .oracle) : takesJump s = false := by
  rw [← Bool.not_eq_true, takesJump_iff]
  rintro ⟨x, -, -, hrun⟩
  cases hm.symm.trans hrun

/-- A fetched jump does not leave an oracle-mode engine Running (R108). -/
theorem mode_eq_run_of_jump {s t : State} {x : Nat} (h : step s = .next t) (ht : t.status = .running)
    (hf : fetch s = .ok (.jumpIfANonzero x)) : s.mode = .run := by
  obtain hm | hm := mode_cases s
  · exact hm
  · cases (step_stops_at_jump (step_cases h).1 hm hf).symm.trans h
    exact absurd ht (ne_running_of_final (oracleStop_ends s).1)

/-- The literal operand of a fetched jump is a slot. -/
theorem jump_operand_le {s : State} {x : Nat} (hf : fetch s = .ok (.jumpIfANonzero x)) : x ≤ 7 :=
  operand_le (fetch_ok_wf hf)

/-- PC after a step: where it was, at the end of the run; at most at L, two slots on; or at a taken jump's target, which is
a slot value (R29, R31, R118). -/
theorem step_pc_cases {s t : State} (h : step s = .next t) :
    (t.status.final = true ∧ t.pc = s.pc) ∨
    (t.status = .running ∧ s.pc + 2 ≤ s.prog.length ∧ t.pc = s.pc + 2) ∨
    (t.status = .running ∧ takesJump s = true ∧ t.pc ≤ 7) := by
  obtain ⟨ht, i, hf, heff⟩ | ⟨hfin, e⟩ := step_executes_or_ends h
  · obtain ⟨x, rfl, ha, rfl⟩ | ⟨-, hpc⟩ := heff.pc_cases
    · exact .inr (.inr ⟨ht, takesJump_iff.2 ⟨_, hf, ha, mode_eq_run_of_jump h ht hf⟩, jump_operand_le hf⟩)
    · exact .inr (.inl ⟨ht, slot?_eq_some (fetch_ok_slots hf).2, hpc⟩)
  · exact .inl ⟨hfin, by rw [e]⟩

/-- In oracle mode, where no jump is executed, a step keeps PC even (R112). -/
theorem step_keeps_oracle_pc_even {s t : State} (h : step s = .next t) (hm : s.mode = .oracle)
    (heven : s.pc % 2 = 0) : t.pc % 2 = 0 := by
  obtain ⟨-, hpc⟩ | ⟨-, -, hpc⟩ | ⟨-, hjump, -⟩ := step_pc_cases h
  · rwa [hpc]
  · omega
  · exact absurd hjump (Bool.eq_false_iff.1 (takesJump_of_oracle hm))

/-! ### Runs that take no jump -/

/-- A run that has taken no jump in `n` steps is over, or has advanced PC by `2 n`. -/
theorem runSteps_without_jump {s : State} (hr : s.status = .running) :
    ∀ n : Nat, (∀ k < n, takesJump (runSteps k s) = false) →
      (runSteps n s).status.final = true ∨
      ((runSteps n s).status = .running ∧ (runSteps n s).pc = s.pc + 2 * n)
  | 0, _ => .inr ⟨hr, rfl⟩
  | n + 1, hj => by
    obtain hfin | ⟨hrun, hpc⟩ := runSteps_without_jump hr n fun k hk => hj k (hk.trans n.lt_succ_self)
    · exact .inl (by rwa [runSteps_succ_of_not_running (ne_running_of_final hfin)])
    · obtain ⟨t, ht⟩ := step_answers hrun
      rw [runSteps_succ ht]
      obtain ⟨hfin, -⟩ | ⟨hrun', -, hpc'⟩ | ⟨-, hjump, -⟩ := step_pc_cases ht
      · exact .inl hfin
      · exact .inr ⟨hrun', by omega⟩
      · exact absurd hjump (Bool.eq_false_iff.1 (hj n n.lt_succ_self))

/-- A pass that begins past the end is a run's last (R77, R110). -/
theorem passEnd_final (s : State) : (passEnd s).status.final = true := by
  rw [passEnd_status]
  split <;> rfl

/-- A run that takes no jump is over one step after PC has gone through the program (R90). -/
theorem runSteps_final_of_no_jump {s : State} (hr : s.status = .running) {n : Nat}
    (hn : s.prog.length ≤ s.pc + 2 * n) (hj : ∀ k < n, takesJump (runSteps k s) = false) :
    (runSteps (n + 1) s).status.final = true := by
  obtain hfin | ⟨hrun, hpc⟩ := runSteps_without_jump hr n hj
  · rwa [runSteps_succ_of_not_running (ne_running_of_final hfin)]
  · obtain ⟨-, hprog, -⟩ := runSteps_keeps_setup s n
    rw [runSteps_succ (step_of_past_end hrun (by rw [hprog, hpc]; exact hn))]
    exact passEnd_final _

/-- From an accepted Start, whose program has an even length L, that is L/2 + 1 steps. -/
theorem runSteps_started_final {q : StartArgs} {s t : State} (h : start q s = .ok t)
    (hj : ∀ k < q.prog.length / 2, takesJump (runSteps k t) = false) :
    (runSteps (q.prog.length / 2 + 1) t).status.final = true := by
  obtain ⟨-, hv, rfl⟩ := start_ok_iff.1 h
  obtain ⟨heven, -⟩ := validate_none_iff.1 hv
  refine runSteps_final_of_no_jump rfl ?_ hj
  simp only [started, List.length_map]
  omega

/-- Settles O41: L/2 instructions and the halt. -/
theorem runWithoutTakenJumpEnds : Obligations.RunWithoutTakenJumpEnds := fun _ _ _ h _ hj =>
  runSteps_started_final h fun k hk => hj k hk.le

/-- Settles O46: an oracle pass takes no jump at all. -/
theorem oraclePassAlwaysEnds : Obligations.OraclePassAlwaysEnds := by
  intro q s t h hm
  obtain ⟨htm, -⟩ := modeAndProgramAreFixedDuringARun s t q h
  have hmode (k : Nat) : (runSteps k t).mode = .oracle := (runSteps_keeps_setup t k).1.trans (htm.trans hm)
  refine ⟨runSteps_started_final h fun k _ => takesJump_of_oracle (hmode k), fun k => ?_⟩
  obtain ⟨-, -, rfl⟩ := start_ok_iff.1 h
  have hkeep : ∀ u u', (u.mode = .oracle ∧ u.pc % 2 = 0) → step u = .next u' → u'.mode = .oracle ∧ u'.pc % 2 = 0 :=
    fun _ _ ⟨hum, heven⟩ hs => ⟨(step_keeps_setup hs).1.trans hum, step_keeps_oracle_pc_even hs hum heven⟩
  exact (runSteps_keeps hkeep k _ ⟨hm, rfl⟩).2

/-! ### The oracle pass beside the full run -/

/-- A step that leaves an oracle-mode engine Running has executed an instruction inside the program that is no jump. -/
theorem step_running_in_oracle {s t : State} (hm : s.mode = .oracle) (h : step s = .next t)
    (ht : t.status = .running) : s.pc < s.prog.length ∧ ∀ x, fetch s ≠ .ok (.jumpIfANonzero x) := by
  obtain ⟨-, i, hf, -⟩ | ⟨hfin, -⟩ := step_executes_or_ends h
  · refine ⟨slot?_eq_some (fetch_ok_slots hf).1, fun x hx => ?_⟩
    cases hm.symm.trans (mode_eq_run_of_jump h ht hx)
  · exact absurd ht (ne_running_of_final hfin)

/-- While an oracle pass is Running, the run-mode engine goes through the same states but for MODE (R106, R107). -/
theorem runSteps_withMode_run {s : State} (hm : s.mode = .oracle) :
    ∀ k, (runSteps k s).status = .running → runSteps k (s.withMode .run) = (runSteps k s).withMode .run
  | 0, _ => rfl
  | k + 1, hrun => by
    have hk : (runSteps k s).status = .running := by
      by_contra hnot
      exact hnot (runSteps_succ_of_not_running hnot ▸ hrun)
    obtain ⟨t, ht⟩ := step_answers hk
    have hmk : (runSteps k s).mode = .oracle := (runSteps_keeps_setup s k).1.trans hm
    rw [runSteps_succ ht] at hrun ⊢
    obtain ⟨hl, hj⟩ := step_running_in_oracle hmk ht hrun
    exact runSteps_succ (by rw [runSteps_withMode_run hm k hk, step_withMode hl hj ht .run])

/-- A step that ends in OracleDone(d) is the oracle stop, with exactly the digit d emitted (R108). -/
theorem step_oracleDone_inv {s t : State} {d : Digit} (h : step s = .next t) (ht : t.status = .oracleDone d) :
    s.mode = .oracle ∧ s.out = [d] ∧ s.prog.slot? s.pc = some 3 ∧ t = s.finishOracle d := by
  obtain ⟨hr, hc⟩ := step_cases h
  cases hc with
  | oracleStop i hf hm hj =>
    have hslot : s.prog.slot? s.pc = some 3 := isJump_iff_opcode.1 hj ▸ (fetch_ok_slots hf).1
    obtain ⟨-, e⟩ | ⟨d', hout, e⟩ | ⟨-, e⟩ := oracleStop_cases s <;> rw [e] at ht <;> cases ht
    exact ⟨hm, hout, hslot, e⟩
  | exec i t hf hm he =>
    obtain heff | ⟨code, -, rfl⟩ := exec_cases he
    · cases (heff.keeps_status.trans hr).symm.trans ht
    · cases ht
  | _ => cases ht

/-- Settles O45: the lockstep, up to the last step of the pass, which is the oracle stop and changes STATUS alone. -/
theorem oraclePassIsAPrefixOfTheRun : Obligations.OraclePassIsAPrefixOfTheRun := by
  intro q s o r ho hr
  obtain rfl : o.withMode .run = r := Except.ok.inj ((start_withMode ho .run).symm.trans hr)
  obtain ⟨-, -, rfl⟩ := start_ok_iff.1 ho
  refine ⟨runSteps_withMode_run rfl, fun k d hd => ?_⟩
  obtain ⟨j, hjk, hrun, hlast⟩ := exists_last_step (k := k) rfl (by rw [hd]; exact Status.noConfusion)
  obtain ⟨-, hout, -, hstop⟩ := step_oracleDone_inv hlast hd
  refine ⟨j, hjk, ?_⟩
  rw [runSteps_withMode_run rfl j hrun, hstop]
  refine ⟨?_, hout⟩
  simp only [State.withMode, State.finishOracle, ← hrun]

end Sys2Proof.Machine

/-! ## The parameters over a run (`00_scope.md` R11): only OUT_CAPACITY has a part in it -/

namespace Sys2Proof.Machine

/-- `s` with other parameters. -/
def State.withConfig (s : State) (cfg : Config) : State := { s with config := cfg }

@[simp] theorem State.readReg_withConfig (s : State) (cfg : Config) (r : Reg) :
    (s.withConfig cfg).readReg r = s.readReg r := by cases r <;> rfl

theorem comboValue_withConfig (s : State) (cfg : Config) (k : Combo) :
    comboValue (s.withConfig cfg) k = comboValue s k := by cases k <;> simp [comboValue]

theorem fetch_withConfig (s : State) (cfg : Config) : fetch (s.withConfig cfg) = fetch s := fetch_congr rfl rfl

theorem oracleStop_withConfig (s : State) (cfg : Config) :
    oracleStop (s.withConfig cfg) = (oracleStop s).withConfig cfg := by
  obtain ⟨hout, e⟩ | ⟨d, hout, e⟩ | ⟨hout, e⟩ := oracleStop_cases s <;> rw [e]
  · exact oracleStop_of_nil (s := s.withConfig cfg) hout
  · exact oracleStop_of_singleton (s := s.withConfig cfg) hout
  · exact oracleStop_of_two_le (s := s.withConfig cfg) hout

section SameCapacity
variable {s t : State} {cfg : Config} (hcap : cfg.outCapacity = s.config.outCapacity)
include hcap

theorem outFull_withConfig : (s.withConfig cfg).outFull = s.outFull := by
  unfold State.outFull
  rw [← hcap]
  rfl

/-- An own effect reads of the parameters OUT_CAPACITY alone. -/
theorem ExecEffect.withConfig {i : Instr} (h : ExecEffect s i t) :
    ExecEffect (s.withConfig cfg) i (t.withConfig cfg) := by
  have hval {k : Combo} {v : Int} (hv : comboValue s k = .ok v) : comboValue (s.withConfig cfg) k = .ok v :=
    (comboValue_withConfig s cfg k).trans hv
  cases h with
  | shiftA k n hn h0 => exact .shiftA k n (hval hn) h0
  | xorBLiteral x => exact .xorBLiteral x
  | modB k v hv => exact .modB k v (hval hv)
  | jumpTaken x ha => exact .jumpTaken (s := s.withConfig cfg) x ha
  | jumpNotTaken x ha => exact .jumpNotTaken (s := s.withConfig cfg) x ha
  | xorBC x => exact .xorBC x
  | emit k v hv hf => exact .emit k v (hval hv) ((outFull_withConfig hcap).trans hf)
  | shiftB k n hn h0 => exact .shiftB k n (hval hn) h0
  | shiftC k n hn h0 => exact .shiftC k n (hval hn) h0

/-- A fault reads of the parameters OUT_CAPACITY alone. -/
theorem ExecFault.withConfig {i : Instr} {code : FaultCode} (h : ExecFault i s code) :
    ExecFault i (s.withConfig cfg) code := by
  cases h with
  | reserved hi => exact .reserved hi
  | negative r hr hi => exact .negative r (by simpa using hr) hi
  | full k v hi hv hf =>
    exact .full k v hi ((comboValue_withConfig s cfg k).trans hv) ((outFull_withConfig hcap).trans hf)

theorem exec_withConfig {i : Instr} (h : exec i s = .next t) :
    exec i (s.withConfig cfg) = .next (t.withConfig cfg) := by
  obtain heff | ⟨code, hfault, rfl⟩ := exec_cases h
  · exact (heff.withConfig hcap).exec_eq
  · exact (hfault.withConfig hcap).exec_eq

/-- With other parameters but the same OUT_CAPACITY a step does the same, case by case. -/
theorem step_withConfig (h : step s = .next t) : step (s.withConfig cfg) = .next (t.withConfig cfg) := by
  obtain ⟨hr, hc⟩ := step_cases h
  have hr' : (s.withConfig cfg).status = .running := hr
  have hf' := fetch_withConfig s cfg
  cases hc with
  | halt hl hm => exact step_halts_of_past_end hr' hm hl
  | noJump hl hm => exact step_faults_of_past_end hr' hm hl
  | beyondEnd hl =>
    have hlt : s.pc < s.prog.length := by omega
    exact step_of_fetch_error hr' hlt (fetch_of_no_operand hl.ge)
  | badSlot o x ho hx hd => exact step_of_fetch_error hr' (slot?_eq_some ho) (fetch_of_slot_gt ho hx (decode_error hd))
  | oracleStop i hf hm hj =>
    rw [step_of_fetch_ok hr' (hf'.trans hf), runFetched_of_stop (s := s.withConfig cfg) hm hj, oracleStop_withConfig]
  | exec i t hf hm he =>
    rw [step_of_fetch_ok hr' (hf'.trans hf), runFetched_of_exec (s := s.withConfig cfg) hm, exec_withConfig hcap he]

end SameCapacity

/-- With other parameters but the same OUT_CAPACITY a run goes through the same states, but for the parameters. -/
theorem runSteps_withConfig {cfg : Config} :
    ∀ (k : Nat) {s : State}, cfg.outCapacity = s.config.outCapacity →
      runSteps k (s.withConfig cfg) = (runSteps k s).withConfig cfg
  | 0, _, _ => rfl
  | k + 1, s, hcap => by
    by_cases hr : s.status = .running
    · obtain ⟨t, ht⟩ := step_answers hr
      obtain ⟨-, -, hconfig⟩ := step_keeps_setup ht
      rw [runSteps_succ_of_next ht, runSteps_succ_of_next (step_withConfig hcap ht),
        runSteps_withConfig k (hconfig ▸ hcap)]
    · rw [runSteps_of_not_running hr, runSteps_of_not_running (s := s.withConfig cfg) hr]

/-- Settles O53: REG_WIDTH and PROG_MAX are the parameters other than OUT_CAPACITY. -/
theorem widthAndStoreSizeMatterAtStartOnly : Obligations.WidthAndStoreSizeMatterAtStartOnly := fun s w m k =>
  runSteps_withConfig (cfg := { s.config with regWidth := w, progMax := m }) k rfl

end Sys2Proof.Machine

/-! ## The invariant (`Sys2Proof/Safety.lean`): at power-on, after a Start, over a step, and in every reachable state -/

namespace Sys2Proof.Machine

/-! ### The parts of the invariant that a step has to keep -/

/-- A register value fits when it has the width of a finite REG_WIDTH (R11). -/
theorem fitsRegister_iff_withinWidth {cfg : Config} {v : Int} :
    fitsRegister cfg v = true ↔ ∀ w, cfg.regWidth = some w → withinWidth w v := by
  simp only [fitsRegister_iff, withinWidth, Int.le_sub_one_iff]

/-- A legal finite REG_WIDTH is at least 64 (R10). -/
theorem regWidth_ge_of_wf {cfg : Config} (h : cfg.wf = true) {w : Nat} (hw : cfg.regWidth = some w) : 64 ≤ w := by
  simp only [Config.wf, hw, Bool.and_eq_true, decide_eq_true_eq] at h
  exact h.1

/-- The values that fit a legal REG_WIDTH are closed under the operations (R23). -/
theorem fitsRegister_closed {cfg : Config} (h : cfg.wf = true) : ClosedUnderOps (fun v => fitsRegister cfg v = true) where
  sar n hv := fitsRegister_iff_withinWidth.2 fun w hw => withinWidth_sar n (fitsRegister_iff_withinWidth.1 hv w hw)
  xor hv hu := fitsRegister_iff_withinWidth.2 fun w hw =>
    withinWidth_xorInt (fitsRegister_iff_withinWidth.1 hv w hw) (fitsRegister_iff_withinWidth.1 hu w hw)
  small hx := fitsRegister_iff_withinWidth.2 fun w hw =>
    withinWidth_of_le_seven (le_trans (by decide) (regWidth_ge_of_wf h hw)) hx

/-- PC stays at most max(L, 7): at L by running up to it, at most 7 by a jump (R31). -/
theorem step_keeps_pcBound {s t : State} (h : step s = .next t) (hpc : s.pc ≤ max s.prog.length 7) :
    t.pc ≤ max t.prog.length 7 := by
  rw [(step_keeps_setup h).2.1]
  obtain ⟨-, hpc'⟩ | ⟨-, hl, hpc'⟩ | ⟨-, -, hpc'⟩ := step_pc_cases h <;> omega

/-- An own effect keeps OUT within its capacity: emit appends where OUT is not full (R37, R104). -/
theorem ExecEffect.out_length_le {i : Instr} {s t : State} (h : ExecEffect s i t) {n : Nat}
    (hcap : s.config.outCapacity = some n) (hle : s.out.length ≤ n) : t.out.length ≤ n := by
  cases h with
  | emit k v hv hf =>
    have hroom := outFull_eq_false_iff.1 hf n hcap
    simp only [State.advance_out, State.appendOut_out, List.length_append, List.length_singleton]
    omega
  | _ => simpa using hle

theorem step_keeps_outFits {s t : State} (h : step s = .next t)
    (hout : ∀ n, s.config.outCapacity = some n → s.out.length ≤ n) (n : Nat)
    (hcap : t.config.outCapacity = some n) : t.out.length ≤ n := by
  rw [(step_keeps_setup h).2.2] at hcap
  obtain ⟨-, i, -, heff⟩ | ⟨-, e⟩ := step_executes_or_ends h
  · exact heff.out_length_le hcap (hout n hcap)
  · rw [e]
    exact hout n hcap

/-- A step leaves STATUS Running or final (R34). -/
theorem step_not_idle {s t : State} (h : step s = .next t) : t.status ≠ .idle := by
  intro ht
  obtain ⟨hrun, -⟩ | ⟨hfin, -⟩ := step_executes_or_ends h
  · cases hrun.symm.trans ht
  · rw [ht] at hfin
    cases hfin

/-! ### The obligations -/

/-- Settles O47, field by field: what every step keeps, and for each STATUS how a step comes to it. -/
theorem stepKeepsTheInvariant : Obligations.StepKeepsTheInvariant := by
  intro s t hs h
  obtain ⟨hmode, hprog, hconfig⟩ := step_keeps_setup h
  obtain ⟨-, -, -, hcauses⟩ := faultsHaveTheListedCauses
  exact {
    configWf := hconfig ▸ hs.configWf
    progWf := hprog ▸ hs.progWf
    progFits := by rw [hprog, hconfig]; exact hs.progFits
    pcBound := step_keeps_pcBound h hs.pcBound
    outFits := step_keeps_outFits h hs.outFits
    regsFit := by rw [hconfig]; exact step_keeps_regs (fitsRegister_closed hs.configWf) h hs.regsFit
    idleMode := fun ht => absurd ht (step_not_idle h)
    oraclePcEven := fun ht =>
      have hm : s.mode = .oracle := hmode ▸ ht
      step_keeps_oracle_pc_even h hm (hs.oraclePcEven hm)
    haltedPastEnd := fun ht => by
      obtain ⟨-, hm, hl, rfl⟩ := step_halted_inv h ht
      exact ⟨hm, hl⟩
    oracleDoneDigit := fun d ht => by
      obtain ⟨hm, hout, hslot, rfl⟩ := step_oracleDone_inv h ht
      exact ⟨hm, hout, hslot⟩
    faultCause := fun code ht => (hcauses s t code (step_cases h).1 h ht).2 }

/-- Settles O48: what the validation accepts, at PC 0 with nothing emitted and STATUS Running. -/
theorem startMakesTheInvariant : Obligations.StartMakesTheInvariant := by
  intro q s t hwf h
  obtain ⟨-, hv, rfl⟩ := start_ok_iff.1 h
  obtain ⟨-, hmax, -, ha, hb, hc⟩ := validate_none_iff.1 hv
  exact {
    configWf := hwf
    progWf := started_prog_wf hv
    progFits := (List.length_map _).trans_le hmax
    pcBound := Nat.zero_le _
    outFits := fun n _ => Nat.zero_le n
    regsFit := fun r => by cases r; exacts [ha, hb, hc]
    idleMode := Status.noConfusion
    oraclePcEven := fun _ => rfl
    haltedPastEnd := Status.noConfusion
    oracleDoneDigit := fun _ => Status.noConfusion
    faultCause := fun _ => Status.noConfusion }

/-- At power-on nothing has run, and the zeros of log entry 2 fit every register. -/
theorem powerOn_inv {cfg : Config} (h : cfg.wf = true) : Inv (State.powerOn cfg) where
  configWf := h
  progWf := powerOn_prog_wf cfg
  progFits := Nat.zero_le _
  pcBound := Nat.zero_le _
  outFits n _ := Nat.zero_le n
  regsFit r := by
    have hzero : fitsRegister cfg 0 = true := (fitsRegister_closed h).small (Nat.zero_le 7)
    cases r <;> exact hzero
  idleMode _ := rfl
  oraclePcEven _ := rfl
  haltedPastEnd := Status.noConfusion
  oracleDoneDigit _ := Status.noConfusion
  faultCause _ := Status.noConfusion

/-- Settles O49: `State.reset` is the power-on state with parameters that are legal. -/
theorem powerOnHasTheInvariant : Obligations.PowerOnHasTheInvariant :=
  ⟨fun _ => powerOn_inv, powerOn_inv (by decide)⟩

/-- The induction over Starts and steps, once: a reachable state has the invariant and the parameters of power-on. -/
theorem Reachable.inv {cfg : Config} {s : State} (hwf : cfg.wf = true) (h : Reachable cfg s) :
    Inv s ∧ s.config = cfg := by
  induction h with
  | powerOn => exact ⟨powerOn_inv hwf, rfl⟩
  | start _ hq ih =>
    obtain ⟨-, hconfig⟩ := ih
    refine ⟨startMakesTheInvariant _ _ _ (hconfig ▸ hwf) hq, ?_⟩
    obtain ⟨-, -, rfl⟩ := start_ok_iff.1 hq
    exact hconfig
  | step _ hs ih =>
    obtain ⟨hinv, hconfig⟩ := ih
    obtain ⟨-, -, hkeep⟩ := step_keeps_setup hs
    exact ⟨stepKeepsTheInvariant _ _ hinv hs, hkeep.trans hconfig⟩

/-- A store in its one form has no slot that is a cause of BAD_SLOT_VALUE (R70). -/
theorem not_causeHolds_badSlotValue {s : State} (h : s.prog.wf = true) : ¬ causeHolds .badSlotValue s := by
  rintro ⟨o, x, ho, hx, hgt⟩
  have hole := slot?_le_of_wf h ho
  have hxle := slot?_le_of_wf h hx
  omega

/-- A fetch that answers BAD_SLOT_VALUE has its cause. -/
theorem causeHolds_of_fetch_badSlotValue {s : State} (h : fetch s = .error .badSlotValue) :
    causeHolds .badSlotValue s := by
  obtain ⟨hcode, -⟩ | ⟨-, o, x, ho, hx, hd⟩ := fetch_error h
  · cases hcode
  · exact ⟨o, x, ho, hx, decode_error hd⟩

/-- Settles O50: BAD_SLOT_VALUE, in STATUS or in the fetch, would have a cause that the invariant excludes. -/
theorem reachableStatesAreSound : Obligations.ReachableStatesAreSound := by
  intro cfg s hwf h
  obtain ⟨hinv, hconfig⟩ := h.inv hwf
  have hslots := not_causeHolds_badSlotValue hinv.progWf
  exact ⟨fun ht => hslots (hinv.faultCause _ ht), fun hf => hslots (causeHolds_of_fetch_badSlotValue hf), hinv.pcBound,
    hinv.faultCause, hconfig⟩

end Sys2Proof.Machine

/-! ## The host's view (`10_state.md` R41, `70_reset_and_hazards.md` R134): what is readable in each STATUS -/

namespace Sys2Proof.Machine

theorem State.hostOut_eq_some_iff {s : State} {o : List Digit} :
    s.hostOut = some o ↔ s.status = .halted ∧ o = s.out := by
  unfold State.hostOut
  cases s.status <;> simp [eq_comm]

theorem State.hostDigit_eq_some_iff {s : State} {d : Digit} : s.hostDigit = some d ↔ s.status = .oracleDone d := by
  unfold State.hostDigit
  cases s.status <;> simp

/-- OUT is readable when Halted only (log entry 7). -/
theorem State.hostOut_eq_none {s : State} (h : s.status ≠ .halted) : s.hostOut = none :=
  Option.eq_none_iff_forall_ne_some.2 fun _ ho => h (State.hostOut_eq_some_iff.1 ho).1

/-- DIGIT is readable when OracleDone only. -/
theorem State.hostDigit_eq_none {s : State} (h : ∀ d, s.status ≠ .oracleDone d) : s.hostDigit = none :=
  Option.eq_none_iff_forall_ne_some.2 fun d hd => h d (State.hostDigit_eq_some_iff.1 hd)

/-- Before a run ends nothing is readable. -/
theorem State.host_reads_nothing {s : State} (h : s.status.final = false) :
    (∀ r, s.hostReg r = none) ∧ s.hostPc = none ∧ s.hostOut = none ∧ s.hostDigit = none := by
  have hnot : ¬ s.status.final = true := by simp [h]
  exact ⟨fun _ => if_neg hnot, if_neg hnot, State.hostOut_eq_none fun hs => hnot (by rw [hs]; rfl),
    State.hostDigit_eq_none fun d hd => hnot (by rw [hd]; rfl)⟩

/-- Settles O58: the readings by STATUS, and the digit as STATUSW shows it. -/
theorem hostReadsResultsOfEndedRunsOnly : Obligations.HostReadsResultsOfEndedRunsOnly := by
  refine fun s => ⟨fun o => State.hostOut_eq_some_iff, fun d => State.hostDigit_eq_some_iff,
    fun hfin => ⟨fun r => if_pos hfin, if_pos hfin⟩, State.host_reads_nothing, fun code hs => ?faulted, fun d hs => ?digit⟩
  case faulted => exact ⟨State.hostOut_eq_none (by simp [hs]), State.hostDigit_eq_none (by simp [hs])⟩
  case digit =>
    obtain ⟨-, hdigit, -⟩ := statusWordFields s
    rw [hdigit, hs]

/-- STATUSW of an Idle engine is all zeros, whatever MODE is (R35). -/
theorem statusw_of_idle {s : State} (h : s.status = .idle) : s.statusw = 0x0000 := by
  have hmode : s.modeField = 0#1 := by rw [State.modeField_eq, if_neg fun hm => hm.1 h]
  rw [State.statusw, hmode, h]
  rfl

/-- Settles O59: Idle is neither Running nor final. -/
theorem powerOnIsIdle : Obligations.PowerOnIsIdle := by
  intro cfg
  obtain ⟨hreg, hpc, hout, hdigit⟩ := State.host_reads_nothing (s := State.powerOn cfg) rfl
  refine ⟨rfl, statusw_of_idle rfl, fun t h => ?_, hout, hdigit, hreg, hpc⟩
  cases (step_cases h).1

end Sys2Proof.Machine
